-- ==== Sys2Proof/Word.lean ====
section
/-! DEFINITION. The word types of the rvm CORE (spec 00_scope.md rules R5, R7, R8): every register and stack
element is an unsigned 8-bit value, every instruction a 16-bit word, bit 0 the least significant. -/

namespace Sys2Proof

/-- A register value or a stack element: `XLEN` = 8, unsigned (R5, R8). -/
abbrev Byte := BitVec 8

/-- An instruction word: `ILEN` = 16 (R5). -/
abbrev Word := BitVec 16

/-- The width of the opcode and target fields (R65). -/
abbrev Nibble := BitVec 4

end Sys2Proof
end

