-- ==== Sys2Proof/Syntax.lean ====
section
/-! DEFINITION. Registers, opcodes and instructions (spec 10_state.md rule R20, 30_encoding.md rules R65 to R71).
An instruction keeps its raw target and value fields: every 16-bit word decodes (R75), and whether a field names
a register is settled only when the instruction is executed (R67, R68, R70). -/

namespace Sys2Proof

/-- The 13 addressable registers (R20). -/
inductive Reg
  | r0 | r1 | r2 | r3 | r4 | r5 | r6 | r7
  /-- instruction pointer (R23) -/
  | rn
  /-- stack depth counter (R24) -/
  | rd
  /-- comparison-flag register (R25) -/
  | rf
  /-- compare-target register (R26) -/
  | rc
  /-- interrupt-selector register (R27) -/
  | rs
deriving DecidableEq, Repr

/-- The register's id, 0 to 12 (R20). -/
def Reg.id : Reg → Nat
  | .r0 => 0 | .r1 => 1 | .r2 => 2 | .r3 => 3 | .r4 => 4 | .r5 => 5 | .r6 => 6 | .r7 => 7
  | .rn => 8 | .rd => 9 | .rf => 10 | .rc => 11 | .rs => 12

/-- The register an id names; ids above 12 name none (R20, R67, R68). -/
def Reg.ofId : Nat → Option Reg
  | 0 => some .r0 | 1 => some .r1 | 2 => some .r2 | 3 => some .r3
  | 4 => some .r4 | 5 => some .r5 | 6 => some .r6 | 7 => some .r7
  | 8 => some .rn | 9 => some .rd | 10 => some .rf | 11 => some .rc | 12 => some .rs
  | _ => none

/-- Every register, in ascending order of id. -/
def Reg.all : List Reg :=
  [.r0, .r1, .r2, .r3, .r4, .r5, .r6, .r7, .rn, .rd, .rf, .rc, .rs]

/-- The 16 opcodes (R71). -/
inductive Opcode
  | int | set | psh | pop | add | sub | mul | div
  | chk | cns | lpt | lsh | rsh | and | bor | xor
deriving DecidableEq, Repr

/-- Every opcode, in the order of its value (R71). -/
def Opcode.all : List Opcode :=
  [.int, .set, .psh, .pop, .add, .sub, .mul, .div, .chk, .cns, .lpt, .lsh, .rsh, .and, .bor, .xor]

/-- The instructions, one constructor per row of opcode_table.json, each with the raw fields `w[11:8]` and
`w[7:0]` of its word (R65). -/
inductive Instr
  /-- system call selected by RS; both fields are ignored (R120) -/
  | int (target : Nibble) (value : Byte)
  /-- load an immediate (R140) -/
  | set (target : Nibble) (imm : Byte)
  /-- push a register range (R141) -/
  | psh (target : Nibble) (value : Byte)
  /-- pop into a register range (R142) -/
  | pop (target : Nibble) (value : Byte)
  /-- checked addition (R160) -/
  | add (target : Nibble) (value : Byte)
  /-- checked subtraction (R161) -/
  | sub (target : Nibble) (value : Byte)
  /-- checked multiplication (R162) -/
  | mul (target : Nibble) (value : Byte)
  /-- checked division (R163) -/
  | div (target : Nibble) (value : Byte)
  /-- unsigned compare into RF (R180) -/
  | chk (target : Nibble) (value : Byte)
  /-- conditional move when RF = RC (R181) -/
  | cns (target : Nibble) (value : Byte)
  /-- load a stack element by index (R182) -/
  | lpt (target : Nibble) (value : Byte)
  /-- logical shift left (R201) -/
  | lsh (target : Nibble) (value : Byte)
  /-- logical shift right (R202) -/
  | rsh (target : Nibble) (value : Byte)
  /-- bitwise AND (R203) -/
  | and (target : Nibble) (value : Byte)
  /-- bitwise OR (R204) -/
  | bor (target : Nibble) (value : Byte)
  /-- bitwise exclusive OR (R205) -/
  | xor (target : Nibble) (value : Byte)
deriving DecidableEq, Repr

/-- The instruction's opcode. -/
def Instr.opcode : Instr → Opcode
  | .int _ _ => .int | .set _ _ => .set | .psh _ _ => .psh | .pop _ _ => .pop
  | .add _ _ => .add | .sub _ _ => .sub | .mul _ _ => .mul | .div _ _ => .div
  | .chk _ _ => .chk | .cns _ _ => .cns | .lpt _ _ => .lpt | .lsh _ _ => .lsh
  | .rsh _ _ => .rsh | .and _ _ => .and | .bor _ _ => .bor | .xor _ _ => .xor

/-- The instruction's raw target field, `w[11:8]`. -/
def Instr.target : Instr → Nibble
  | .int t _ => t | .set t _ => t | .psh t _ => t | .pop t _ => t
  | .add t _ => t | .sub t _ => t | .mul t _ => t | .div t _ => t
  | .chk t _ => t | .cns t _ => t | .lpt t _ => t | .lsh t _ => t
  | .rsh t _ => t | .and t _ => t | .bor t _ => t | .xor t _ => t

/-- The instruction's raw value field, `w[7:0]`. -/
def Instr.value : Instr → Byte
  | .int _ v => v | .set _ v => v | .psh _ v => v | .pop _ v => v
  | .add _ v => v | .sub _ v => v | .mul _ v => v | .div _ v => v
  | .chk _ v => v | .cns _ v => v | .lpt _ v => v | .lsh _ v => v
  | .rsh _ v => v | .and _ v => v | .bor _ v => v | .xor _ v => v

end Sys2Proof
end

