-- ==== Sys2Proof/WellFormed.lean ====
section
/-! DEFINITION. When an instruction's fields are legal (spec 30_encoding.md rules R67, R68, R70, R73). An
instruction that is not well-formed is still a word the block executes: its execution raises the fault R73 names.
Well-formedness says that this fault is not raised. -/

namespace Sys2Proof

/-- Whether the opcode decodes its target field as a register: every opcode but `int` (R70). -/
def Opcode.decodesTarget : Opcode → Bool
  | .int => false
  | .set | .psh | .pop | .add | .sub | .mul | .div | .chk | .cns | .lpt | .lsh | .rsh | .and | .bor | .xor => true

/-- Whether the opcode decodes its value field as a register: the fourteen register-operand opcodes (R70). -/
def Opcode.decodesValue : Opcode → Bool
  | .int | .set => false
  | .psh | .pop | .add | .sub | .mul | .div | .chk | .cns | .lpt | .lsh | .rsh | .and | .bor | .xor => true

/-- The target field names a register wherever the opcode decodes it (R67). -/
def Instr.targetOk (i : Instr) : Bool :=
  !i.opcode.decodesTarget || (Reg.ofId i.target.toNat).isSome

/-- The value field names a register wherever the opcode decodes it so (R68). -/
def Instr.valueOk (i : Instr) : Bool :=
  !i.opcode.decodesValue || (Reg.ofId i.value.toNat).isSome

/-- No decode fault of R73. -/
def Instr.wellFormed (i : Instr) : Bool :=
  i.targetOk && i.valueOk

end Sys2Proof
end

