-- ==== Sys2Proof/Decode.lean ====
section
/-! DEFINITION. Decoding and encoding (spec 30_encoding.md rules R65 to R75; 20_memory.md rule R48 for bytes
outside the block). Decoding a 16-bit word is total: all sixteen opcodes are assigned (R72, R75). Only a byte
string that ends inside a word is rejected, by name. -/

namespace Sys2Proof

/-- Opcode projection: bits 15:12 (R66). -/
def opcodeBits (w : Word) : Nibble := w.extractLsb' 12 4

/-- The raw target field: bits 11:8 (R65). -/
def targetBits (w : Word) : Nibble := w.extractLsb' 8 4

/-- The raw value field: bits 7:0 (R65, R69). -/
def valueBits (w : Word) : Byte := w.extractLsb' 0 8

/-- The opcode a 4-bit value selects (R71). Four bits hold 0 to 15 (R66), so the last arm is 15 alone. -/
def Opcode.ofBits (b : Nibble) : Opcode :=
  match b.toNat with
  | 0 => .int | 1 => .set | 2 => .psh | 3 => .pop | 4 => .add | 5 => .sub | 6 => .mul | 7 => .div
  | 8 => .chk | 9 => .cns | 10 => .lpt | 11 => .lsh | 12 => .rsh | 13 => .and | 14 => .bor | _ => .xor

/-- The 4-bit value of an opcode (R71). -/
def Opcode.bits : Opcode → Nibble
  | .int => 0x0 | .set => 0x1 | .psh => 0x2 | .pop => 0x3 | .add => 0x4 | .sub => 0x5 | .mul => 0x6 | .div => 0x7
  | .chk => 0x8 | .cns => 0x9 | .lpt => 0xA | .lsh => 0xB | .rsh => 0xC | .and => 0xD | .bor => 0xE | .xor => 0xF

/-- The instruction of an opcode with given raw fields. -/
def Instr.ofFields (o : Opcode) (t : Nibble) (v : Byte) : Instr :=
  match o with
  | .int => .int t v | .set => .set t v | .psh => .psh t v | .pop => .pop t v
  | .add => .add t v | .sub => .sub t v | .mul => .mul t v | .div => .div t v
  | .chk => .chk t v | .cns => .cns t v | .lpt => .lpt t v | .lsh => .lsh t v
  | .rsh => .rsh t v | .and => .and t v | .bor => .bor t v | .xor => .xor t v

/-- Decode: the opcode selects the instruction, the fields are kept raw (R71, R75, R104). -/
def decodeWord (w : Word) : Instr :=
  Instr.ofFields (Opcode.ofBits (opcodeBits w)) (targetBits w) (valueBits w)

/-- The word of an opcode and its two fields: `(opcode << 12) | (target << 8) | value` (R75). -/
def encodeFields (o : Opcode) (t : Nibble) (v : Byte) : Word :=
  (o.bits.setWidth 16 <<< 12) ||| (t.setWidth 16 <<< 8) ||| v.setWidth 16

/-- Encode an instruction (R75). -/
def encode (i : Instr) : Word :=
  encodeFields i.opcode i.target i.value

/-- Why a byte string is no sequence of instruction words. -/
inductive DecodeError
  /-- the bytes end before a whole 16-bit word -/
  | truncated
deriving DecidableEq, Repr

/-- A word as it is stored outside the block, most significant byte first (R48). -/
def wordBytes (w : Word) : List Byte :=
  [w.extractLsb' 8 8, w.extractLsb' 0 8]

/-- The word two stored bytes make (R48). -/
def wordOfBytes (hi lo : Byte) : Word := (hi.setWidth 16 <<< 8) ||| lo.setWidth 16

/-- Decode the first instruction of a byte string, with the bytes after it (R48, R75). -/
def decodeBytes : List Byte → Except DecodeError (Instr × List Byte)
  | hi :: lo :: rest => .ok (decodeWord (wordOfBytes hi lo), rest)
  | _ => .error .truncated

/-- The bytecode a stored image holds: "a flat array of big-endian 16-bit words with no header" (R48). -/
def bytecodeOfBytes : List Byte → Except DecodeError (List Word)
  | [] => .ok []
  | hi :: lo :: rest => (bytecodeOfBytes rest).map (wordOfBytes hi lo :: ·)
  | [_] => .error .truncated

/-- The stored image of a bytecode (R48). -/
def bytesOfBytecode (ws : List Word) : List Byte :=
  ws.flatMap wordBytes

/-- The word whose low `nbits` bits are `w` and whose other bits are 0. -/
def tableWord (nbits w : Nat) : Word := BitVec.ofNat 16 (w % 2 ^ nbits)

/-- The instruction the decoder reads from an instruction numbered as opcode_table.json numbers it: `w` is laid
out as the two stored bytes and read back by the byte decoder. An instruction is one 16-bit word (R65), so more
than 16 bits are refused. -/
def decodeTableWord (nbits w : Nat) : Option Instr :=
  if nbits ≤ 16 then
    match decodeBytes (wordBytes (tableWord nbits w)) with
    | .ok (i, []) => some i
    | _ => none
  else none

end Sys2Proof
end

