-- ==== Sys2Proof/Config.lean ====
section
/-! DEFINITION. The open parameters of 00_scope.md rule R6 and the free values of the model. Each is an opaque
constant with no body: nothing in Lean can evaluate one, so a theorem about the model holds for every value the
spec admits. A parameter's constraint (R6's third column) is carried by its type. Where a structure gives its
fields default values, they only show Lean that such values exist; no proof can see them. -/

namespace Sys2Proof

/-- `HALT_CODE` = 0 (R5, R121, decision D3). DEDUCED by the spec; log entry 5. -/
def Config.haltCode : Byte := 0

/-- The two `int` codes the spec leaves open, with R6's constraint: neither is `HALT_CODE`, and they differ. -/
structure IntCodes where
  /-- `PRINTLINE_CODE` (D4). -/
  printline : Byte := 1
  /-- `READLINE_CODE` (D4). -/
  readline : Byte := 2
  printline_ne_halt : printline ≠ Config.haltCode := by decide
  readline_ne_halt : readline ≠ Config.haltCode := by decide
  printline_ne_readline : printline ≠ readline := by decide
deriving Inhabited

/-- The three codes `chk` writes, with R6's constraint: pairwise distinct. -/
structure CmpCodes where
  /-- `CMP_EQ` (D5). -/
  eq : Byte := 0
  /-- `CMP_LT` (D5). -/
  lt : Byte := 1
  /-- `CMP_GT` (D5). -/
  gt : Byte := 2
  eq_ne_lt : eq ≠ lt := by decide
  eq_ne_gt : eq ≠ gt := by decide
  lt_ne_gt : lt ≠ gt := by decide
deriving Inhabited

/-- The kinds `VALUE_REG_FAULT` may be (R6, R68, conflict C2). -/
inductive ValueRegFault
  | invalidTarget
  | invalidValue
deriving DecidableEq, Repr, Inhabited

/-- The kinds `POP_UNDERFLOW_FAULT` may be (R6, R59, conflict C3). -/
inductive PopUnderflowFault
  | stackUnderflow
  | stackOverflow
deriving DecidableEq, Repr, Inhabited

/-- `RN_FETCH_OVERFLOW`: what RN becomes when the fetch at index 255 lets the overflow through (R6, R102). -/
inductive RnFetchOverflow
  | wrap
  | hold
deriving DecidableEq, Repr, Inhabited

/-- `SHIFT_OVERSIZE`: how shift amounts 8..255 act (R6, R200). -/
inductive ShiftOversize
  | mask
  | zero
deriving DecidableEq, Repr, Inhabited

/-- `PARTIAL_EFFECTS`: what a fault inside a multi-element instruction leaves (R6, R224). -/
inductive PartialEffects
  | retained
  | unspecified
deriving DecidableEq, Repr, Inhabited

/-- A finite `STACK_CAPACITY`: at least 255 (R6, decision D18). -/
structure StackCapacity where
  size : Nat := 255
  size_ge : 255 ≤ size := by decide
deriving Inhabited

/-- `PRINTLINE_CODE` and `READLINE_CODE` (R6, D4; log entry 6). -/
opaque Config.intCodes : IntCodes

/-- `CMP_EQ`, `CMP_LT` and `CMP_GT` (R6, D5; log entry 7). -/
opaque Config.cmpCodes : CmpCodes

/-- `VALUE_REG_FAULT` (R6, D6; log entry 8). -/
opaque Config.valueRegFault : ValueRegFault

/-- `POP_UNDERFLOW_FAULT` (R6, D7; log entry 9). -/
opaque Config.popUnderflowFault : PopUnderflowFault

/-- `RN_FETCH_OVERFLOW` (R6, D8; log entry 10). -/
opaque Config.rnFetchOverflow : RnFetchOverflow

/-- `SHIFT_OVERSIZE` (R6, D10; log entry 12). -/
opaque Config.shiftOversize : ShiftOversize

/-- `PARTIAL_EFFECTS` (R6, D12; log entry 14). -/
opaque Config.partialEffects : PartialEffects

/-- `STACK_CAPACITY`: `none` is unbounded (R6, D18; log entry 19). -/
opaque Config.stackCapacity : Option StackCapacity

/-- The host input oracle (R6, R125, D16): the answer to the n-th READLINE, where the state lists no answer of
its own; `none` is `IOError`. A free value; log entry 28. -/
opaque Config.hostLine : Nat → Option (List Byte)

/-- The host's reply to the n-th PRINTLINE (R125, D17), where the state lists no reply of its own; `true` is
acceptance and `false` is `IOError`. A free value; log entry 28. -/
opaque Config.hostAccepts : Nat → Bool

/-- The stack the n-th unspecified partial effect leaves (93 U5). A free value; log entry 14. -/
opaque Config.freeStack : Nat → List Byte

/-- The value the n-th unspecified partial effect leaves in the register of an id (93 U5). A free value; log
entry 14. -/
opaque Config.freeReg : Nat → Nat → Byte

/-- Whether the assembler accepts a leading `+` in a decimal literal (R85, 93 U18; log entry 25). -/
opaque Config.plusLiteral : Bool

end Sys2Proof
end

