-- ==== Sys2Proof/Machine/State.lean ====
section
/-! DEFINITION. The state of the rvm CORE (spec 10_state.md rules R20 to R37), the fault kinds (60_exceptions.md
rule R220), the reasons a step of the model has no next state, and reset (70_reset_and_hazards.md rule R250). -/

namespace Sys2Proof.Machine

/-- The run status (R33). -/
inductive RunStatus
  | running
  | halted
  | faulted
deriving DecidableEq, Repr

/-- The execution faults, in the order of their codes (R220). A fault ends the run: it is recorded in the state
(R223), so raising one is a next state of the model. -/
inductive FaultKind
  /-- fetch with `RN >= N` (R101) -/
  | fetchInvalid
  /-- fetch at index 255 of a word whose target field is not RN (R102) -/
  | fetchNext
  /-- no condition raises it: every opcode is assigned (R72) -/
  | invalidOpcode
  /-- a target field 13..15; a value-register field 13..255 where VALUE_REG_FAULT says so (R67, R68) -/
  | invalidTarget
  /-- a value-register field 13..255 where VALUE_REG_FAULT says so (R68) -/
  | invalidValue
  /-- an arithmetic result outside 0..255, or a divisor 0 (R160 to R163) -/
  | registerOverflow
  /-- a push at RD = 255 or at a full finite stack (R58); a pop underflow where POP_UNDERFLOW_FAULT says so -/
  | stackOverflow
  /-- `lpt` with an index of at least Len (R60) -/
  | stackInvalidAccess
  /-- the host answers PRINTLINE or READLINE with IOError (R126) -/
  | interrupt
  /-- `int` with RS = 0: the one end that is not an error (R121, R225) -/
  | halt
  /-- `int` with RS none of the three codes (R124) -/
  | unimplemented
  /-- a pop underflow where POP_UNDERFLOW_FAULT says so (R59) -/
  | stackUnderflow
deriving DecidableEq, Repr

/-- The numeric code of a fault kind (R220, decision D20; log entry 21). -/
def FaultKind.code : FaultKind → Nat
  | .fetchInvalid => 0 | .fetchNext => 1 | .invalidOpcode => 2 | .invalidTarget => 3 | .invalidValue => 4
  | .registerOverflow => 5 | .stackOverflow => 6 | .stackInvalidAccess => 7 | .interrupt => 8 | .halt => 9
  | .unimplemented => 10 | .stackUnderflow => 11

/-- The fault record (R34, R221): the kind and `fault_ip`, RN at the time of the fault. -/
structure FaultRecord where
  kind : FaultKind
  ip : Byte
deriving DecidableEq, Repr

/-- What the host answers to a READLINE request (R125). -/
inductive LineAnswer
  /-- one line: any bytes, any length -/
  | line (bytes : List Byte)
  /-- an I/O error -/
  | ioError
  /-- no answer, ever: the step is held and has no move (93 U14) -/
  | silent
deriving DecidableEq, Repr

/-- What the host replies to a PRINTLINE output (R125). -/
inductive PrintReply
  | accepted
  | ioError
deriving DecidableEq, Repr

/-- The state. The first seven fields are the spec's (R20 to R35); the rest are the model's own and carry the
host's side of R125 and the draws of free values. -/
structure State where
  /-- the 14 storage entries; entry 13 is unaddressable (R20, R22) -/
  regs : Vector Byte 14
  /-- the operand stack, bottom first; Len is its length (R30, R31) -/
  stack : List Byte
  /-- the bytecode; N is its length (R32) -/
  code : List Word
  /-- the run status (R33) -/
  status : RunStatus
  /-- the fault record (R34) -/
  fault : Option FaultRecord
  /-- the word fetched by the most recent successful step (R35) -/
  trace : Option Word
  /-- what PRINTLINE handed to the host and the host accepted, oldest first (R122; log entry 30) -/
  output : List (List Byte)
  /-- the host's coming answers to READLINE, next first (R125; log entry 28) -/
  lineAnswers : List LineAnswer
  /-- the host's coming replies to PRINTLINE, next first (R125; log entry 28) -/
  printReplies : List PrintReply
  /-- how many lines have been asked for: the input oracle's argument (log entry 28) -/
  linesAsked : Nat
  /-- how many outputs have been sent: the reply oracle's argument (log entry 28) -/
  printsSent : Nat
  /-- how many free values have been drawn (log entry 31) -/
  draws : Nat
deriving DecidableEq, Repr

/-- Why a step of the model has no next state. -/
inductive Fault
  /-- raised by `step` alone, when the status is Halted or Faulted: no step exists there (R100). Safe. -/
  | notRunning
  /-- raised by `int` READLINE alone, when the host's next answer is that it never answers: the step is held for
  ever and has no move (R125, 93 U14). Safe: nothing is claimed of later states. -/
  | hostSilent
deriving DecidableEq, Repr

/-- Why an instruction is refused. -/
inductive Refusal
  /-- raised by an arm of `exec` whose instruction has no meaning yet. No arm raises it: every instruction is
  modelled. Safe. -/
  | notModelled (mnemonic : String)
deriving DecidableEq, Repr

/-- Reset is the creation of a context from a bytecode (R250): registers 0, stack empty, status Running, no fault
record, no trace word. -/
def State.create (code : List Word) : State where
  regs := Vector.replicate 14 0
  stack := []
  code := code
  status := .running
  fault := none
  trace := none
  output := []
  lineAnswers := []
  printReplies := []
  linesAsked := 0
  printsSent := 0
  draws := 0

/-- The machine right after reset with no bytecode handed to `create` (R250; log entry 2). -/
def State.reset : State := State.create []

end Sys2Proof.Machine
end

