-- ==== Sys2Proof/Machine/Ops.lean ====
section
/-! DEFINITION. The named operations over the state: register access (spec 10_state.md), the stack controller
(20_memory.md rules R57 to R60), fault entry (60_exceptions.md rule R223), what a fault inside a multi-element
instruction leaves (R224), and the host port (41_int.md rule R125). There is no return from a fault (R226), so no
operation returns from one. -/

namespace Sys2Proof.Machine

/-- What a step or a meaning answers. -/
abbrev Result := Host.Outcome State Fault Refusal

/-! ### Registers (R20 to R22) -/

/-- The storage entry of a register: its id (R20). -/
def regIndex (r : Reg) : Fin 14 :=
  match r with
  | .r0 => 0 | .r1 => 1 | .r2 => 2 | .r3 => 3 | .r4 => 4 | .r5 => 5 | .r6 => 6 | .r7 => 7
  | .rn => 8 | .rd => 9 | .rf => 10 | .rc => 11 | .rs => 12

/-- `x[r]` (R9). -/
def readReg (r : Reg) (s : State) : Byte :=
  s.regs[regIndex r]

/-- `x[r] <- v` (R9). No register is hardwired and none is an alias (R21). -/
def writeReg (r : Reg) (v : Byte) (s : State) : State :=
  { s with regs := s.regs.set (regIndex r).val v (regIndex r).isLt }

/-! ### Fault entry (R223) -/

/-- `raise Fault(k)`: the kind and RN as it stands are recorded, the status becomes Halted for Halt and Faulted for
every other kind, and nothing else is written or undone. -/
def raise (k : FaultKind) (s : State) : State :=
  { s with
    fault := some ⟨k, readReg .rn s⟩
    status := if k = .halt then .halted else .faulted }

/-- A meaning that ends by raising a fault: a next state, in which the run has ended. -/
def takeFault (k : FaultKind) (s : State) : Result :=
  .next (raise k s)

/-! ### The stack controller -/

/-- The state with another stack. -/
def setStack (st : List Byte) (s : State) : State :=
  { s with stack := st }

/-- The kind a pop underflow raises (R59, parameter `POP_UNDERFLOW_FAULT`). -/
def popUnderflowKind : FaultKind :=
  match Config.popUnderflowFault with
  | .stackUnderflow => .stackUnderflow
  | .stackOverflow => .stackOverflow

/-- `STACK_CAPACITY` is finite and Len equals it (R58). A capacity is at least 255, so a shorter stack is never
full whatever the capacity is. -/
def stackFull (s : State) : Bool :=
  decide (255 ≤ s.stack.length) &&
    match Config.stackCapacity with
    | none => false
    | some c => decide (s.stack.length = c.size)

/-- `PushChecked(v)` (R58). A raise leaves the stack and RD unchanged. -/
def pushChecked (v : Byte) (s : State) : Except FaultKind State :=
  if 255 < (readReg .rd s).toNat + 1 then .error .stackOverflow
  else if stackFull s then .error .stackOverflow
  else .ok (writeReg .rd (readReg .rd s + 1) (setStack (s.stack ++ [v]) s))

/-- `PopChecked()` (R59): the element and the state after it. A raise leaves the stack and RD unchanged. -/
def popChecked (s : State) : Except FaultKind (Byte × State) :=
  match s.stack.getLast? with
  | none => .error popUnderflowKind
  | some v =>
    if readReg .rd s = 0 then .error popUnderflowKind
    else .ok (v, writeReg .rd (readReg .rd s - 1) (setStack s.stack.dropLast s))

/-- `StackRead(i)`: index 0 is the bottom, the bound is Len (R60). -/
def stackRead (i : Byte) (s : State) : Except FaultKind Byte :=
  match s.stack[i.toNat]? with
  | none => .error .stackInvalidAccess
  | some v => .ok v

/-! ### Multi-element instructions (R141, R142, R123, R224) -/

/-- How a multi-element instruction ended: all elements done, or a fault raised after some number of them. -/
inductive ElementsResult
  | done (s : State)
  | raised (k : FaultKind) (elementsDone : Nat) (s : State)
deriving DecidableEq, Repr

/-- Push one element after another, each read when it is pushed (R141, R123); `n` counts the elements done. -/
def pushEach {α : Type} (value : α → State → Byte) : List α → Nat → State → ElementsResult
  | [], _, s => .done s
  | a :: rest, n, s =>
    match pushChecked (value a s) s with
    | .error k => .raised k n s
    | .ok s' => pushEach value rest (n + 1) s'

/-- Pop one register after another, each written after RD is decremented (R142); `n` counts the elements done. -/
def popEach : List Reg → Nat → State → ElementsResult
  | [], _, s => .done s
  | r :: rest, n, s =>
    match popChecked s with
    | .error k => .raised k n s
    | .ok (v, s') => popEach rest (n + 1) (writeReg r v s')

/-- Every listed register takes its free value of draw `n`. -/
def writeFree (n : Nat) : List Reg → State → State
  | [], s => s
  | r :: rest, s => writeFree n rest (writeReg r (Config.freeReg n r.id) s)

/-- `PARTIAL_EFFECTS = Unspecified`: the stack, RD and the registers of the range are free values (R224, 93 U5). -/
def drawPartial (range : List Reg) (s : State) : State :=
  writeFree s.draws (.rd :: range)
    (setStack (Config.freeStack s.draws) { s with draws := s.draws + 1 })

/-- What the faulted context holds after a fault with `n` elements done (R224): a fault at the first element has
changed nothing (R58, R59); a later one leaves the elements done, or free values, as `PARTIAL_EFFECTS` says (log
entry 14). -/
def settlePartial (range : List Reg) (n : Nat) (s : State) : State :=
  if n = 0 then s
  else
    match Config.partialEffects with
    | .retained => s
    | .unspecified => drawPartial range s

/-- A fault raised with `n` elements done. Fault entry comes first, so `fault_ip` is RN at the time of the fault (R221,
R223); only then may the faulted context hold free values (R224), and they never reach the record. -/
def raisePartial (k : FaultKind) (range : List Reg) (n : Nat) (s : State) : State :=
  settlePartial range n (raise k s)

/-! ### The host port (R125) -/

/-- The host's answer to a READLINE: the next listed one, else the oracle's (log entry 28). -/
def lineAnswer (s : State) : LineAnswer :=
  match s.lineAnswers with
  | a :: _ => a
  | [] =>
    match Config.hostLine s.linesAsked with
    | some bytes => .line bytes
    | none => .ioError

/-- The state once that answer is taken: a line is consumed (R51, R123). -/
def takeLine (s : State) : State :=
  { s with lineAnswers := s.lineAnswers.tail, linesAsked := s.linesAsked + 1 }

/-- The host's reply to a PRINTLINE: the next listed one, else the oracle's (log entry 28). -/
def printReply (s : State) : PrintReply :=
  match s.printReplies with
  | a :: _ => a
  | [] => if Config.hostAccepts s.printsSent then .accepted else .ioError

/-- The state once that reply is taken. -/
def takeReply (s : State) : State :=
  { s with printReplies := s.printReplies.tail, printsSent := s.printsSent + 1 }

/-- The host accepts a byte sequence (R122). -/
def acceptOutput (bytes : List Byte) (s : State) : State :=
  { s with output := s.output ++ [bytes] }

end Sys2Proof.Machine
end

