-- ==== Sys2Proof/Machine/Operands.lean ====
section
/-! DEFINITION. The operand forms (spec 30_encoding.md rules R67 to R70, 42_set_stack.md rules R141 and R142,
45_bitwise.md rule R200): target register, value register, register range, shift amount. The immediate of `set` is
its 8-bit field itself (R69). -/

namespace Sys2Proof.Machine

/-- The kind an invalid value-register field raises (R68, parameter `VALUE_REG_FAULT`). -/
def valueRegKind : FaultKind :=
  match Config.valueRegFault with
  | .invalidTarget => .invalidTarget
  | .invalidValue => .invalidValue

/-- `DecodeTarget` (R67). -/
def decodeTarget (t : Nibble) : Except FaultKind Reg :=
  match Reg.ofId t.toNat with
  | some r => .ok r
  | none => .error .invalidTarget

/-- `DecodeValueReg`: the whole 8-bit field is compared (R68). -/
def decodeValueReg (v : Byte) : Except FaultKind Reg :=
  match Reg.ofId v.toNat with
  | some r => .ok r
  | none => .error valueRegKind

/-- Decode the target, then go on (R70). -/
def withTarget (t : Nibble) (s : State) (body : Reg → Result) : Result :=
  match decodeTarget t with
  | .error k => takeFault k s
  | .ok rt => body rt

/-- Decode the target, then the value register, before any effect or condition test (R70, decision D9). -/
def withOperands (t : Nibble) (v : Byte) (s : State) (body : Reg → Reg → Result) : Result :=
  withTarget t s fun rt =>
    match decodeValueReg v with
    | .error k => takeFault k s
    | .ok rv => body rt rv

/-- The registers from `min(a, b)` to `max(a, b)` inclusive, in ascending order of id (R141). -/
def regRange (a b : Reg) : List Reg :=
  Reg.all.filter fun r => decide (min a.id b.id ≤ r.id) && decide (r.id ≤ max a.id b.id)

/-- `ShiftAmount` under a reading of `SHIFT_OVERSIZE` (R200): the amount to shift by, or `none` where every bit is
shifted out. -/
def shiftAmountFor (o : ShiftOversize) (b : Byte) : Option Nat :=
  match o with
  | .mask => some (b.toNat % 8)
  | .zero => if 8 ≤ b.toNat then none else some b.toNat

/-- `ShiftAmount` (R200). -/
def shiftAmount (b : Byte) : Option Nat :=
  shiftAmountFor Config.shiftOversize b

end Sys2Proof.Machine
end

