-- ==== Sys2Proof/Machine/Arith.lean ====
section
/-! DEFINITION. Checked unsigned arithmetic: `add`, `sub`, `mul`, `div` (spec 43_arith.md rules R160 to R164). The
exact result is computed on unbounded integers; a result outside 0..255, and a division by zero, raise
RegisterOverflow and write nothing. -/

namespace Sys2Proof.Machine

/-- The exact sum (R160). -/
def exactAdd (a b : Nat) : Option Nat := some (a + b)

/-- The exact difference, none below zero (R161). -/
def exactSub (a b : Nat) : Option Nat := if a < b then none else some (a - b)

/-- The exact product (R162). -/
def exactMul (a b : Nat) : Option Nat := some (a * b)

/-- The floor quotient, none for a divisor 0 (R163). -/
def exactDiv (a b : Nat) : Option Nat := if b = 0 then none else some (a / b)

/-- Store an exact result, or raise RegisterOverflow where it is outside 0..255 (R164). -/
def storeChecked (t : Reg) (result : Option Nat) (s : State) : Result :=
  match result with
  | none => takeFault .registerOverflow s
  | some r => if 255 < r then takeFault .registerOverflow s else .next (writeReg t (BitVec.ofNat 8 r) s)

/-- One checked operation: both operands are read before the destination is written (R164). -/
def checkedOp (op : Nat → Nat → Option Nat) (target : Nibble) (value : Byte) (s : State) : Result :=
  withOperands target value s fun t v =>
    storeChecked t (op (readReg t s).toNat (readReg v s).toNat) s

/-- `add rT rV` (R160). -/
def execAdd (target : Nibble) (value : Byte) (s : State) : Result := checkedOp exactAdd target value s

/-- `sub rT rV` (R161). -/
def execSub (target : Nibble) (value : Byte) (s : State) : Result := checkedOp exactSub target value s

/-- `mul rT rV` (R162). -/
def execMul (target : Nibble) (value : Byte) (s : State) : Result := checkedOp exactMul target value s

/-- `div rT rV` (R163). -/
def execDiv (target : Nibble) (value : Byte) (s : State) : Result := checkedOp exactDiv target value s

end Sys2Proof.Machine
end

