-- ==== Sys2Proof/Machine/Bitwise.lean ====
section
/-! DEFINITION. Shifts and bitwise logic: `lsh`, `rsh`, `and`, `bor`, `xor` (spec 45_bitwise.md rules R200 to R205).
None raises an overflow. -/

namespace Sys2Proof.Machine

/-- Combine the target's value with the value register's, in place. -/
def combine (op : Byte → Byte → Byte) (target : Nibble) (value : Byte) (s : State) : Result :=
  withOperands target value s fun t v =>
    .next (writeReg t (op (readReg t s) (readReg v s)) s)

/-- Shift left by an amount; `none` shifts every bit out (R201). -/
def shiftLeftBy (a : Byte) : Option Nat → Byte
  | none => 0
  | some n => a <<< n

/-- Logical shift right by an amount; `none` shifts every bit out (R202). -/
def shiftRightBy (a : Byte) : Option Nat → Byte
  | none => 0
  | some n => a >>> n

/-- `lsh rT rV` (R200, R201). -/
def execLsh (target : Nibble) (value : Byte) (s : State) : Result :=
  combine (fun a b => shiftLeftBy a (shiftAmount b)) target value s

/-- `rsh rT rV` (R200, R202). -/
def execRsh (target : Nibble) (value : Byte) (s : State) : Result :=
  combine (fun a b => shiftRightBy a (shiftAmount b)) target value s

/-- `and rT rV` (R203). -/
def execAnd (target : Nibble) (value : Byte) (s : State) : Result := combine (· &&& ·) target value s

/-- `bor rT rV` (R204). -/
def execBor (target : Nibble) (value : Byte) (s : State) : Result := combine (· ||| ·) target value s

/-- `xor rT rV` (R205). -/
def execXor (target : Nibble) (value : Byte) (s : State) : Result := combine (· ^^^ ·) target value s

end Sys2Proof.Machine
end

