-- ==== Sys2Proof/Machine/Flags.lean ====
section
/-! DEFINITION. The one flag computation: the code `chk` writes to RF and the condition `cns` reads (spec
10_state.md rules R25, R26, R28; 44_compare_load.md rules R180, R181). There are no arithmetic flags (R28). -/

namespace Sys2Proof.Machine

/-- The code of an unsigned comparison of the target's value with the value register's (R180, decision D5). -/
def compareCode (a b : Byte) : Byte :=
  if a = b then Config.cmpCodes.eq
  else if a.toNat < b.toNat then Config.cmpCodes.lt
  else Config.cmpCodes.gt

/-- The condition of `cns`: RF = RC, all 8 bits (R181). -/
def conditionHolds (s : State) : Bool :=
  decide (readReg .rf s = readReg .rc s)

end Sys2Proof.Machine
end

