-- ==== Sys2Proof/Machine/CompareLoad.lean ====
section
/-! DEFINITION. `chk`, `cns` and `lpt` (spec 44_compare_load.md rules R180 to R182). -/

namespace Sys2Proof.Machine

/-- `chk rT rV` (R180): the only effect is RF. -/
def execChk (target : Nibble) (value : Byte) (s : State) : Result :=
  withOperands target value s fun t v =>
    .next (writeReg .rf (compareCode (readReg t s) (readReg v s)) s)

/-- `cns rT rV` (R181): both fields are decoded whether or not the condition holds (decision D9). -/
def execCns (target : Nibble) (value : Byte) (s : State) : Result :=
  withOperands target value s fun t v =>
    if conditionHolds s then .next (writeReg t (readReg v s) s) else .next s

/-- `lpt rT rV` (R182). -/
def execLpt (target : Nibble) (value : Byte) (s : State) : Result :=
  withOperands target value s fun t v =>
    match stackRead (readReg v s) s with
    | .error k => takeFault k s
    | .ok b => .next (writeReg t b s)

end Sys2Proof.Machine
end

