-- ==== Sys2Proof/Machine/SetStack.lean ====
section
/-! DEFINITION. `set`, `psh` and `pop` (spec 42_set_stack.md rules R140 to R142). -/

namespace Sys2Proof.Machine

/-- The end of a range instruction: done, or the fault with what it leaves (R224). -/
def finishRange (range : List Reg) : ElementsResult → Result
  | .done s => .next s
  | .raised k n s => .next (raisePartial k range n s)

/-- `set rT imm` (R140): the immediate is the 8-bit field itself (R69). -/
def execSet (target : Nibble) (imm : Byte) (s : State) : Result :=
  withTarget target s fun t => .next (writeReg t imm s)

/-- `psh rT rV` (R141): ascending ids, each register read when its element is pushed. -/
def execPsh (target : Nibble) (value : Byte) (s : State) : Result :=
  withOperands target value s fun t v =>
    finishRange (regRange t v) (pushEach readReg (regRange t v) 0 s)

/-- `pop rT rV` (R142): descending ids, each register written after RD is decremented. -/
def execPop (target : Nibble) (value : Byte) (s : State) : Result :=
  withOperands target value s fun t v =>
    finishRange (regRange t v) (popEach (regRange t v).reverse 0 s)

end Sys2Proof.Machine
end

