-- ==== Sys2Proof/Machine/System.lean ====
section
/-! DEFINITION. `int`, the system call selected by RS (spec 41_int.md rules R120 to R126). -/

namespace Sys2Proof.Machine

/-- HALT: the run ends with status Halted and nothing else changes (R121, R225). -/
def haltRun (s : State) : Result :=
  takeFault .halt s

/-- PRINTLINE: hand the stack elements from index R0 to the tail to the host (R122). An index past the end gives
an empty output (decision D15); an I/O error raises Interrupt (R126). -/
def printLine (s : State) : Result :=
  match printReply s with
  | .accepted => .next (acceptOutput (s.stack.drop (readReg .r0 s).toNat) (takeReply s))
  | .ioError => takeFault .interrupt (takeReply s)

/-- READLINE: take one line, push at most R0 of its bytes in line order, and store the count in R0 (R123). -/
def readLine (s : State) : Result :=
  match lineAnswer s with
  | .silent => .fault .hostSilent
  | .ioError => takeFault .interrupt (takeLine s)
  | .line bytes =>
    let count := min (readReg .r0 s).toNat bytes.length
    match pushEach (fun b _ => b) (bytes.take count) 0 (takeLine s) with
    | .done s' => .next (writeReg .r0 (BitVec.ofNat 8 count) s')
    | .raised k n s' => .next (raisePartial k [.r0] n s')

/-- `int` (R120): the fields are not decoded; RS is read when the instruction executes. -/
def execInt (_target : Nibble) (_value : Byte) (s : State) : Result :=
  if readReg .rs s = Config.haltCode then haltRun s
  else if readReg .rs s = Config.intCodes.printline then printLine s
  else if readReg .rs s = Config.intCodes.readline then readLine s
  else takeFault .unimplemented s

end Sys2Proof.Machine
end

