-- ==== Sys2Proof/Machine/Dispatch.lean ====
section
/-! DEFINITION. Dispatch on the opcode alone (spec 40_step.md rule R104): one arm per instruction. -/

namespace Sys2Proof.Machine

/-- Execute one instruction, RN already advanced by fetch (R107). -/
def exec (i : Instr) (s : State) : Host.Outcome State Fault Refusal :=
  match i with
  | .int t v => Sys2Proof.Machine.execInt t v s
  | .set t m => Sys2Proof.Machine.execSet t m s
  | .psh t v => Sys2Proof.Machine.execPsh t v s
  | .pop t v => Sys2Proof.Machine.execPop t v s
  | .add t v => Sys2Proof.Machine.execAdd t v s
  | .sub t v => Sys2Proof.Machine.execSub t v s
  | .mul t v => Sys2Proof.Machine.execMul t v s
  | .div t v => Sys2Proof.Machine.execDiv t v s
  | .chk t v => Sys2Proof.Machine.execChk t v s
  | .cns t v => Sys2Proof.Machine.execCns t v s
  | .lpt t v => Sys2Proof.Machine.execLpt t v s
  | .lsh t v => Sys2Proof.Machine.execLsh t v s
  | .rsh t v => Sys2Proof.Machine.execRsh t v s
  | .and t v => Sys2Proof.Machine.execAnd t v s
  | .bor t v => Sys2Proof.Machine.execBor t v s
  | .xor t v => Sys2Proof.Machine.execXor t v s

end Sys2Proof.Machine
end

