-- ==== Sys2Proof/Machine/Fetch.lean ====
section
/-! DEFINITION. Fetch, the advance of RN, and the end of a step (spec 40_step.md rules R101, R102, R106, R107). -/

namespace Sys2Proof.Machine

/-- What RN becomes where the overflow at index 255 passes through (R102, parameter `RN_FETCH_OVERFLOW`). -/
def overflowedRn : Byte :=
  match Config.rnFetchOverflow with
  | .wrap => 0
  | .hold => 255

/-- Fetch (R101, R102): the word at RN and the state with RN advanced, or the fetch fault. The overflow test reads
the raw target field of every opcode (decision D27). -/
def fetch (s : State) : Except FaultKind (Word × State) :=
  match s.code[(readReg .rn s).toNat]? with
  | none => .error .fetchInvalid
  | some w =>
    if readReg .rn s = 255 then
      if targetBits w = 8 then .ok (w, writeReg .rn overflowedRn s)
      else .error .fetchNext
    else .ok (w, writeReg .rn (readReg .rn s + 1) s)

/-- The end of a step (R106): a step that raised no fault outputs its word as the trace word. -/
def retire (w : Word) : Result → Result
  | .next s => .next (if s.status = .running then { s with trace := some w } else s)
  | .fault r => .fault r
  | .refused r => .refused r

/-- A bytecode with the word `w` at index `i`: the words before it are kept, and any that lack are 0. -/
def placeWord : List Word → Nat → Word → List Word
  | [], 0, w => [w]
  | [], i + 1, w => 0 :: placeWord [] i w
  | _ :: rest, 0, w => w :: rest
  | a :: rest, i + 1, w => a :: placeWord rest i w

end Sys2Proof.Machine
end

