-- ==== Sys2Proof/Machine/Step.lean ====
section
/-! DEFINITION. One step (spec 40_step.md rules R100, R107) and the placing of an instruction where the next step
fetches it. -/

namespace Sys2Proof.Machine

/-- One step: enabled only while the status is Running (R100); fetch, decode, execute, trace (R107). -/
def step (s : State) : Host.Outcome State Fault Refusal :=
  if s.status = .running then
    match fetch s with
    | .error k => takeFault k s
    | .ok (w, s') => retire w (exec (decodeWord w) s')
  else .fault .notRunning

/-- The state with an instruction placed at index RN of its bytecode, and Running with no fault record, so that the
next step fetches and runs it (log entry 35). -/
def State.withFetchWord (s : State) (nbits w : Nat) : State :=
  { s with
    code := placeWord s.code (readReg .rn s).toNat (tableWord nbits w)
    status := .running
    fault := none }

end Sys2Proof.Machine
end

