-- ==== Sys2Proof/Machine/Assembler.lean ====
section
/-! DEFINITION. The assembler, the toolchain's pure function from text to bytecode (spec 30_encoding.md rules R80 to
R88). It is software beside the block; no instruction depends on it. A line and a token are lists of characters. -/

namespace Sys2Proof.Machine

/-- A physical line, or one token of it. -/
abbrev Text := List Char

/-- The assembly errors (R86). The block never sees one. -/
inductive AsmErrorKind
  | noOpcode
  | noTarget
  | noValue
  | lineError
deriving DecidableEq, Repr

/-- An error with its context: the 0-based physical line number and the raw line (R81, R86). -/
structure AsmError where
  kind : AsmErrorKind
  line : Nat
  text : Text
deriving DecidableEq, Repr

/-- The mnemonic of an opcode, lowercase only (R83). -/
def mnemonicText (o : Opcode) : Text :=
  match o with
  | .int => "int".toList | .set => "set".toList | .psh => "psh".toList | .pop => "pop".toList
  | .add => "add".toList | .sub => "sub".toList | .mul => "mul".toList | .div => "div".toList
  | .chk => "chk".toList | .cns => "cns".toList | .lpt => "lpt".toList | .lsh => "lsh".toList
  | .rsh => "rsh".toList | .and => "and".toList | .bor => "bor".toList | .xor => "xor".toList

/-- The assembler spelling of a register, lowercase only (R20, R84). -/
def regText (r : Reg) : Text :=
  match r with
  | .r0 => "r0".toList | .r1 => "r1".toList | .r2 => "r2".toList | .r3 => "r3".toList
  | .r4 => "r4".toList | .r5 => "r5".toList | .r6 => "r6".toList | .r7 => "r7".toList
  | .rn => "rn".toList | .rd => "rd".toList | .rf => "rf".toList | .rc => "rc".toList | .rs => "rs".toList

/-- The opcode a token names (R83). -/
def opcodeOfText (tok : Text) : Option Opcode :=
  Opcode.all.find? fun o => decide (mnemonicText o = tok)

/-- The register a token names (R84). -/
def regOfText (tok : Text) : Option Reg :=
  Reg.all.find? fun r => decide (regText r = tok)

/-- Cut at every occurrence of a character; `n` occurrences make `n + 1` pieces (R82). -/
def cutAt (c : Char) : Text → List Text
  | [] => [[]]
  | a :: rest =>
    if a = c then [] :: cutAt c rest
    else
      match cutAt c rest with
      | [] => [[a]]
      | piece :: pieces => (a :: piece) :: pieces

/-- Remove white space at both ends (R81; log entry 25). -/
def trimText (l : Text) : Text :=
  ((l.dropWhile Char.isWhitespace).reverse.dropWhile Char.isWhitespace).reverse

/-- The value of a string of ASCII decimal digits (R85). -/
def digitsValue (ds : Text) : Nat :=
  ds.foldl (fun n c => 10 * n + (c.toNat - 48)) 0

/-- One or more ASCII digits whose value is at most 255, leading zeros allowed (R85). -/
def digitsLiteral (ds : Text) : Option Byte :=
  if ds ≠ [] ∧ ds.all Char.isDigit ∧ digitsValue ds ≤ 255 then some (BitVec.ofNat 8 (digitsValue ds)) else none

/-- A decimal literal; whether a leading `+` is accepted is not settled (R85, 93 U18). -/
def decimalLiteral (tok : Text) : Option Byte :=
  match tok with
  | '+' :: ds => if Config.plusLiteral then digitsLiteral ds else none
  | ds => digitsLiteral ds

/-- The target field (R84): every opcode but `int` needs a register; for `int` anything else is encoded as 0. -/
def targetField (o : Opcode) (tok : Option Text) : Option Nibble :=
  match tok.bind regOfText with
  | some r => some (BitVec.ofNat 4 r.id)
  | none => if o = .int then some 0 else none

/-- The value field (R85): a register mnemonic gives its id; `set` also takes a decimal literal; for `int` anything
else is encoded as 0. -/
def valueField (o : Opcode) (tok : Option Text) : Option Byte :=
  match tok.bind regOfText with
  | some r => some (BitVec.ofNat 8 r.id)
  | none => if o = .int then some 0 else if o = .set then tok.bind decimalLiteral else none

/-- Assemble one trimmed line; the first error in token order is reported (R82 to R86, decision D24). -/
def assembleLine (l : Text) : Except AsmErrorKind Word :=
  let toks := cutAt ' ' l
  if 3 < toks.length ∨ [] ∈ toks then .error .lineError
  else
    match opcodeOfText (toks.headD []) with
    | none => .error .noOpcode
    | some o =>
      match targetField o toks[1]? with
      | none => .error .noTarget
      | some t =>
        match valueField o toks[2]? with
        | none => .error .noValue
        | some v => .ok (encodeFields o t v)

/-- A line that takes no instruction slot: empty after trimming, or beginning with `#` (R81). -/
def skipsLine (l : Text) : Bool :=
  match trimText l with
  | [] => true
  | c :: _ => decide (c = '#')

/-- Assemble physical lines, numbered from `n`; the first erroring line aborts (R86). -/
def assembleFrom (n : Nat) : List Text → Except AsmError (List Word)
  | [] => .ok []
  | l :: rest =>
    if skipsLine l then assembleFrom (n + 1) rest
    else
      match assembleLine (trimText l) with
      | .error k => .error ⟨k, n, l⟩
      | .ok w => (assembleFrom (n + 1) rest).map (w :: ·)

/-- Assemble a whole file, one instruction per physical line (R80, R86, R87). -/
def assemble (file : Text) : Except AsmError (List Word) :=
  assembleFrom 0 (cutAt '\n' file)

end Sys2Proof.Machine
end

