-- ==== Sys2Proof/Machine/RunLoop.lean ====
section
/-! DEFINITION. The run loop (spec 40_step.md rules R110 to R113). -/

namespace Sys2Proof.Machine

/-- What a run under a step limit has come to. -/
inductive RunResult
  /-- the status is Halted or Faulted: the run ended with this context (R111, R112) -/
  | ended (s : State)
  /-- a READLINE is held for an answer that never comes: the run does not end (R112, 93 U14) -/
  | held (s : State)
  /-- the limit is reached while Running: this is not an end (R113) -/
  | unfinished (s : State)
deriving DecidableEq, Repr

/-- Step until the run ends, at most `fuel` steps (R110). -/
def runFor : Nat → State → RunResult
  | 0, s => if s.status = .running then .unfinished s else .ended s
  | fuel + 1, s =>
    if s.status = .running then
      match step s with
      | .next s' => runFor fuel s'
      | .fault _ => .held s
      | .refused _ => .held s
    else .ended s

end Sys2Proof.Machine
end

