-- ==== Sys2Proof/Safety.lean ====
section
/-! DEFINITION. What claims about the machine are stated in: invariants of a state, frames, when a push or a pop
succeeds, and which fault kinds each opcode may raise. -/

namespace Sys2Proof.Machine

/-! ### Invariants of a state -/

/-- The status and the fault record agree (R33, R34, R223, R225): Running has no record, Halted has a record of kind
Halt, Faulted has a record of another kind, and `fault_ip` is RN as it stands, but where PARTIAL_EFFECTS is
Unspecified and RN may have become a free value after it was recorded (R224). -/
def recordAgrees (s : State) : Prop :=
  match s.status with
  | .running => s.fault = none
  | .halted => s.fault = some ⟨.halt, readReg .rn s⟩
  | .faulted => ∃ k ip, k ≠ .halt ∧ s.fault = some ⟨k, ip⟩ ∧
      (Config.partialEffects = .retained → ip = readReg .rn s)

/-- RD mirrors the length of the stack (R24's intended relation, conflict C5). -/
def depthMirrors (s : State) : Prop :=
  (readReg .rd s).toNat = s.stack.length

/-- A finite STACK_CAPACITY bounds the stack of a machine that runs (R30, R58). -/
def withinCapacity (s : State) : Prop :=
  s.status = .running → ∀ c, Config.stackCapacity = some c → s.stack.length ≤ c.size

/-! ### Frames -/

/-- Every register outside the list, and register-file entry 13, is unchanged. -/
def regsSameExcept (ds : List Reg) (s u : State) : Prop :=
  (∀ q, q ∉ ds → readReg q u = readReg q s) ∧ u.regs[13] = s.regs[13]

/-- The bytecode, the run status, the fault record, the trace word and the draw counter are unchanged. -/
def runSame (s u : State) : Prop :=
  u.code = s.code ∧ u.status = s.status ∧ u.fault = s.fault ∧ u.trace = s.trace ∧ u.draws = s.draws

/-- The output handed to the host and the host's side of PRINTLINE are unchanged. -/
def printSame (s u : State) : Prop :=
  u.output = s.output ∧ u.printReplies = s.printReplies ∧ u.printsSent = s.printsSent

/-- The host's side of READLINE is unchanged. -/
def lineSame (s u : State) : Prop :=
  u.lineAnswers = s.lineAnswers ∧ u.linesAsked = s.linesAsked

/-- Everything but the registers and the stack is unchanged. -/
def restSame (s u : State) : Prop :=
  runSame s u ∧ printSame s u ∧ lineSame s u

/-- The answer is a next state in which the register holds the value and nothing else has changed. -/
def writesOnly (r : Reg) (x : Byte) (s : State) (out : Result) : Prop :=
  ∃ u, out = .next u ∧ readReg r u = x ∧ regsSameExcept [r] s u ∧ u.stack = s.stack ∧ restSame s u

/-- The state ended with a fault of the kind, `ip` recorded as RN at the time of the fault (R221, R223). -/
def endedBy (k : FaultKind) (ip : Byte) (u : State) : Prop :=
  u.fault = some ⟨k, ip⟩ ∧ u.status = if k = .halt then .halted else .faulted

/-! ### Encoding and decode faults -/

/-- The opcode value alone selects the instruction, and its fields are the word's (R65, R71). -/
def encodedBy (op : Nibble) (f : Nibble → Byte → Instr) : Prop :=
  ∀ w : Word, opcodeBits w = op → decodeWord w = f (targetBits w) (valueBits w)

/-- A register-operand instruction faults on a target field of 13 to 15, then on a value field of 13 to 255, with
nothing else written (R67, R68, R70, R73). -/
def decodeFaults (f : Nibble → Byte → Instr) : Prop :=
  ∀ t v s,
    (12 < t.toNat → exec (f t v) s = .next (raise .invalidTarget s)) ∧
    (t.toNat ≤ 12 → 12 < v.toNat → exec (f t v) s = .next (raise valueRegKind s))

/-! ### When pushes and pops succeed -/

/-- `n` pushes in a row succeed: RD does not pass 255 and no push meets a full finite stack (R58). -/
def roomFor (n : Nat) (s : State) : Prop :=
  (readReg .rd s).toNat + n ≤ 255 ∧
  ∀ c, Config.stackCapacity = some c → ∀ j, j < n → s.stack.length + j ≠ c.size

/-- The values a register range pushes, in order: RD is already advanced by the earlier pushes (R141, R255). -/
def pushedValues (range : List Reg) (s : State) : List Byte :=
  range.mapIdx fun j r => if r = .rd then readReg .rd s + BitVec.ofNat 8 j else readReg r s

/-- The element the `j`-th pop takes, the tail being the 0th. -/
def poppedAt (s : State) (j : Nat) : Byte :=
  s.stack.getD (s.stack.length - 1 - j) 0

/-- RD before the `j`-th pop into the registers listed: it counts down from its old value, or from the value popped
into RD once RD has been popped into (R142, R255). -/
def depthBeforePop (regs : List Reg) (s : State) (j : Nat) : Nat :=
  match (regs.take j).idxOf? .rd with
  | some p => (poppedAt s p).toNat - (j - 1 - p)
  | none => (readReg .rd s).toNat - j

/-- RN once `j` pops into the registers listed are done: the value popped into it, or its old value (R142, R255).
That a later fault records it is log entry 22's reading of R223 beside R221. -/
def rnAfterPops (regs : List Reg) (s : State) (j : Nat) : Byte :=
  match (regs.take j).idxOf? .rn with
  | some p => poppedAt s p
  | none => readReg .rn s

/-- The first `k` pops into the registers listed succeed: none meets an empty stack or RD = 0 (R59). -/
def popsSucceed (regs : List Reg) (k : Nat) (s : State) : Prop :=
  ∀ j, j < k → j < s.stack.length ∧ depthBeforePop regs s j ≠ 0

/-- What a fault after `n` elements leaves (R224, log entry 14): at the first element nothing is changed yet; later
the elements done are kept, or, where PARTIAL_EFFECTS is Unspecified, only the registers outside RD and the range
(and entry 13) are known to be unchanged. -/
def leftByFault (range : List Reg) (n : Nat) (kept : Prop) (s u : State) : Prop :=
  (n = 0 → kept) ∧
  match Config.partialEffects with
  | .retained => kept
  | .unspecified => regsSameExcept (.rd :: range) s u

/-! ### Whole-machine vocabulary -/

/-- The instruction may write the register by naming it: its target for the single-target opcodes, RF for `chk`, the
registers of its range for `pop`, R0 for `int` (READLINE). `psh` names none. RD as the stack controller moves it is
not counted here. -/
def namesDestination (i : Instr) (r : Reg) : Prop :=
  match i with
  | .int _ _ => r = .r0
  | .psh _ _ => False
  | .chk _ _ => r = .rf
  | .pop t v => min t.toNat v.toNat ≤ r.id ∧ r.id ≤ max t.toNat v.toNat
  | .set t _ | .add t _ | .sub t _ | .mul t _ | .div t _ | .cns t _ | .lpt t _
  | .lsh t _ | .rsh t _ | .and t _ | .bor t _ | .xor t _ => r.id = t.toNat

/-- The instruction's rule has a single element (R10): every opcode but `psh`, `pop` and `int`. -/
def singleElement (i : Instr) : Prop :=
  i.opcode ≠ .int ∧ i.opcode ≠ .psh ∧ i.opcode ≠ .pop

/-- The fault kinds an opcode may raise when it executes (R220's table). -/
def executeKinds (o : Opcode) : List FaultKind :=
  match o with
  | .int => [.halt, .unimplemented, .interrupt, .stackOverflow]
  | .set => [.invalidTarget]
  | .psh => [.invalidTarget, valueRegKind, .stackOverflow]
  | .pop => [.invalidTarget, valueRegKind, popUnderflowKind]
  | .add | .sub | .mul | .div => [.invalidTarget, valueRegKind, .registerOverflow]
  | .lpt => [.invalidTarget, valueRegKind, .stackInvalidAccess]
  | .chk | .cns | .lsh | .rsh | .and | .bor | .xor => [.invalidTarget, valueRegKind]

/-- The state with register-file entry 13 holding a value (R22). -/
def withEntry13 (v : Byte) (s : State) : State :=
  { s with regs := s.regs.set 13 v }

/-- An answer with `f` applied to its next state. -/
def onNext (f : State → State) : Result → Result
  | .next s => .next (f s)
  | .fault r => .fault r
  | .refused r => .refused r

end Sys2Proof.Machine
end

