-- ==== Sys2Proof/Certificates/Slice0/Obligations.lean ====
section
/-! DEFINITION. The statements for the provers, from the numbered rules of spec/. -/

open Sys2Proof Sys2Proof.Machine

/-! ### Encoding -/

/-- R75: decoding is total, encoding then decoding returns the instruction with every field, decoding then encoding
returns the word, the word is `(opcode << 12) | (target << 8) | value`, an instruction whose fields are not valid
faults only when it executes (R67, R68), and `set r0 200` assembles to 0x10C8. -/
def Obligations.DecodeEncodeRoundTrip : Prop :=
  (∀ i : Instr, decodeWord (encode i) = i) ∧
  (∀ w : Word, encode (decodeWord w) = w) ∧
  (∀ i : Instr, (encode i).toNat = i.opcode.bits.toNat <<< 12 ||| i.target.toNat <<< 8 ||| i.value.toNat) ∧
  (∀ (i : Instr) (s : State), i.wellFormed = false →
    ∃ k, (k = .invalidTarget ∨ k = valueRegKind) ∧ exec i s = .next (raise k s)) ∧
  assembleLine "set r0 200".toList = .ok 0x10C8

/-- R71: the opcode value alone selects the instruction, for all sixteen values. -/
def Obligations.OpcodeMapSelectsInstruction : Prop :=
  encodedBy 0x0 .int ∧ encodedBy 0x1 .set ∧ encodedBy 0x2 .psh ∧ encodedBy 0x3 .pop ∧
  encodedBy 0x4 .add ∧ encodedBy 0x5 .sub ∧ encodedBy 0x6 .mul ∧ encodedBy 0x7 .div ∧
  encodedBy 0x8 .chk ∧ encodedBy 0x9 .cns ∧ encodedBy 0xA .lpt ∧ encodedBy 0xB .lsh ∧
  encodedBy 0xC .rsh ∧ encodedBy 0xD .and ∧ encodedBy 0xE .bor ∧ encodedBy 0xF .xor

/-- Words written out from the spec's encodings and vectors decode to their instructions. -/
def Obligations.WrittenWordsDecode : Prop :=
  decodeWord 0x10C8 = .set 0 200 ∧ decodeWord 0xA403 = .lpt 4 3 ∧ decodeWord 0x3507 = .pop 5 7 ∧
  decodeWord 0x0D0F = .int 13 15 ∧ decodeWord 0x9804 = .cns 8 4 ∧ decodeWord 0x4F0D = .add 15 13

/-- R48, bytecode stored as bytes: the byte at offset 2i is bits 15:8 of word i, the byte at 2i+1 its bits 7:0, and
reading the image back gives the bytecode. -/
def Obligations.StoredImageIsBigEndian : Prop :=
  ∀ ws : List Word,
    bytecodeOfBytes (bytesOfBytecode ws) = .ok ws ∧
    ∀ k : Nat,
      (bytesOfBytecode ws)[2 * k]? = ws[k]?.map (fun w => w.extractLsb' 8 8) ∧
      (bytesOfBytecode ws)[2 * k + 1]? = ws[k]?.map (fun w => w.extractLsb' 0 8)

/-- R67, R68 (with R70's order): an opcode that decodes its target faults InvalidTarget on 13..15; one that decodes
its value as a register faults VALUE_REG_FAULT on 13..255; nothing is written but the fault; and an instruction whose
fields are valid raises neither InvalidTarget nor InvalidValue. The order of the two checks is decision D9 (log entry
11). -/
def Obligations.InvalidFieldsFault : Prop :=
  ∀ (i : Instr) (s : State),
    (i.targetOk = false → exec i s = .next (raise .invalidTarget s)) ∧
    (i.targetOk = true → i.valueOk = false → exec i s = .next (raise valueRegKind s)) ∧
    (i.targetOk = true → i.valueOk = true → s.fault = none → ∀ (u : State) (f : FaultRecord),
      exec i s = .next u → u.fault = some f → f.kind ≠ .invalidTarget ∧ f.kind ≠ .invalidValue) ∧
    (i.targetOk = false ↔ i.opcode ≠ .int ∧ 12 < i.target.toNat) ∧
    (i.valueOk = false ↔ i.opcode ≠ .int ∧ i.opcode ≠ .set ∧ 12 < i.value.toNat) ∧
    valueRegKind = (match Config.valueRegFault with
      | .invalidTarget => .invalidTarget
      | .invalidValue => .invalidValue)

/-! ### State, reset, registers -/

/-- R250: after creation every register and entry 13 are 0, the stack is empty, the bytecode is the words given, the
status is Running, there is no fault record and no trace word. -/
def Obligations.CreationResetsEverything : Prop :=
  ∀ code : List Word,
    (∀ r, readReg r (State.create code) = 0) ∧ (State.create code).regs[13] = 0 ∧
    (State.create code).stack = [] ∧ (State.create code).code = code ∧
    (State.create code).status = .running ∧ (State.create code).fault = none ∧
    (State.create code).trace = none

/-- R20, R21: each of the 13 ids names one cell; a write is read back, no other register and no other part of the
state changes, and no register discards a write. -/
def Obligations.RegisterWriteIsReadBack : Prop :=
  ∀ (r : Reg) (v : Byte) (s : State), writesOnly r v s (.next (writeReg r v s))

/-- R22: register-file entry 13 is never read: a step from a state in which it holds another value differs in nothing
else. Rests on decision D2 (log entry 4). -/
def Obligations.EntryThirteenIsUnobservable : Prop :=
  ∀ (v : Byte) (s : State), step (withEntry13 v s) = onNext (withEntry13 v) (step s)

/-! ### The stack controller -/

/-- R58: `PushChecked` raises StackOverflow when RD + 1 > 255 or at a full finite stack, else appends and increments
RD; it changes nothing else. Rests on decisions D11 (log entry 13) and D18 (log entry 19). -/
def Obligations.PushCheckedAppends : Prop :=
  ∀ (v : Byte) (s : State),
    (255 < (readReg .rd s).toNat + 1 → pushChecked v s = .error .stackOverflow) ∧
    (∀ c, Config.stackCapacity = some c → s.stack.length = c.size → pushChecked v s = .error .stackOverflow) ∧
    ((readReg .rd s).toNat + 1 ≤ 255 → (∀ c, Config.stackCapacity = some c → s.stack.length ≠ c.size) →
      ∃ u, pushChecked v s = .ok u ∧ u.stack = s.stack ++ [v] ∧
        (readReg .rd u).toNat = (readReg .rd s).toNat + 1 ∧ regsSameExcept [.rd] s u ∧ restSame s u)

/-- R59: `PopChecked` raises POP_UNDERFLOW_FAULT on an empty stack or RD = 0, else removes and returns the tail and
decrements RD; it changes nothing else. Rests on decisions D7 (log entry 9) and D26 (log entry 26). -/
def Obligations.PopCheckedRemovesTail : Prop :=
  (popUnderflowKind = match Config.popUnderflowFault with
    | .stackUnderflow => .stackUnderflow
    | .stackOverflow => .stackOverflow) ∧
  ∀ s : State,
    (s.stack = [] → popChecked s = .error popUnderflowKind) ∧
    (readReg .rd s = 0 → popChecked s = .error popUnderflowKind) ∧
    (∀ st v, s.stack = st ++ [v] → readReg .rd s ≠ 0 →
      ∃ u, popChecked s = .ok (v, u) ∧ u.stack = st ∧
        (readReg .rd u).toNat + 1 = (readReg .rd s).toNat ∧ regsSameExcept [.rd] s u ∧ restSame s u)

/-! ### Fetch and the step -/

/-- R100: a step exists exactly while the status is Running. In Halted or Faulted the model answers the stop
`notRunning` (log entry 1), and however many steps a run allows, the context stays as it is. -/
def Obligations.StepOnlyWhileRunning : Prop :=
  ∀ s : State,
    (s.status ≠ .running → step s = .fault .notRunning ∧ ∀ n, runFor n s = .ended s) ∧
    (s.status = .running → step s ≠ .fault .notRunning)

/-- R101: a fetch at RN >= N faults FetchInvalid, and RN is unchanged; with N = 0 the first step does, with fault_ip
= 0. That RN is kept, and so `fault_ip`, the spec marks as derived (R101, decision D21, log entry 22). -/
def Obligations.FetchPastEndFaults : Prop :=
  (∀ s : State, s.status = .running → s.code.length ≤ (readReg .rn s).toNat →
    step s = .next (raise .fetchInvalid s) ∧
    (raise .fetchInvalid s).fault = some ⟨.fetchInvalid, readReg .rn s⟩ ∧
    readReg .rn (raise .fetchInvalid s) = readReg .rn s) ∧
  ∃ u, step (State.create []) = .next u ∧ u.fault = some ⟨.fetchInvalid, 0⟩

/-- R102: fetch advances RN by one; at RN = 255 the increment overflows, a word whose raw target field is not 8
faults FetchNext with RN left 255, and a word whose target field is 8 leaves RN 0 (`Wrap`) or 255 (`Hold`). Rests on
decisions D8 (log entry 10) and D27 (log entry 27). -/
def Obligations.FetchAdvancesRn : Prop :=
  ∀ (s : State) (w : Word), s.code[(readReg .rn s).toNat]? = some w →
    (readReg .rn s ≠ 255 → ∃ u, fetch s = .ok (w, u) ∧ (readReg .rn u).toNat = (readReg .rn s).toNat + 1 ∧
      regsSameExcept [.rn] s u ∧ u.stack = s.stack ∧ restSame s u) ∧
    (readReg .rn s = 255 → targetBits w ≠ 8 →
      fetch s = .error .fetchNext ∧
      (s.status = .running → step s = .next (raise .fetchNext s) ∧ readReg .rn (raise .fetchNext s) = 255)) ∧
    (readReg .rn s = 255 → targetBits w = 8 → ∃ u, fetch s = .ok (w, u) ∧
      readReg .rn u = (match Config.rnFetchOverflow with | .wrap => 0 | .hold => 255) ∧
      regsSameExcept [.rn] s u ∧ u.stack = s.stack ∧ restSame s u)

/-- R107: a running machine whose fetch gives a word runs exactly the instruction the word decodes to, on the state
with RN advanced, and then outputs the word as the trace word if no fault was raised; where the instruction has no
next state, the step stops the same way. -/
def Obligations.StepRunsDecodedInstruction : Prop :=
  ∀ (s u : State) (w : Word), s.status = .running → fetch s = .ok (w, u) →
    (∀ t, exec (decodeWord w) u = .next t →
      step s = .next (if t.status = .running then { t with trace := some w } else t)) ∧
    (∀ r, exec (decodeWord w) u = .fault r → step s = .fault r) ∧
    (∀ r, exec (decodeWord w) u = .refused r → step s = .refused r)

/-- R106: a step that ends Running outputs the word it fetched; a step that raises outputs no trace word (the last
one stands). That a raising step outputs none is decision D23 (log entry 24). -/
def Obligations.TraceWordOfSuccessfulStep : Prop :=
  ∀ s t : State, s.status = .running → step s = .next t →
    (t.status = .running → ∃ w, s.code[(readReg .rn s).toNat]? = some w ∧ t.trace = some w) ∧
    (t.status ≠ .running → t.trace = s.trace)

/-- R108, R109: `set rn k` at any index, 255 included, leaves RN = k and the machine Running. -/
def Obligations.SetRnJumps : Prop :=
  ∀ (s : State) (k : Byte), s.status = .running →
    s.code[(readReg .rn s).toNat]? = some (encode (.set 8 k)) →
    ∃ t, step s = .next t ∧ readReg .rn t = k ∧ t.status = .running ∧ regsSameExcept [.rn] s t ∧ t.stack = s.stack

/-- R103, R105, R109: below index 255, a step whose instruction does not name RN as its destination leaves RN at the
next index, whether it completes or faults (a faulting `psh` apart: where PARTIAL_EFFECTS is Unspecified its range
may hold RN). Rests on the derivations R103, R105 and R109 mark as the spec's own (log entry 22). -/
def Obligations.SequentialUnlessRnNamed : Prop :=
  ∀ (s t : State) (w : Word), s.status = .running → s.code[(readReg .rn s).toNat]? = some w →
    readReg .rn s ≠ 255 → ¬ namesDestination (decodeWord w) .rn → step s = .next t →
    (t.status = .running ∨ (decodeWord w).opcode ≠ .psh) →
    (readReg .rn t).toNat = (readReg .rn s).toNat + 1

/-! ### Faults -/

/-- R223: fault entry records the kind and RN, sets the status, and writes or undoes nothing else; and a step that
leaves a running machine not Running ends in exactly one fault entry, on a state still Running with no trace word put
out, after which the faulted context is as it stands, or, where PARTIAL_EFFECTS is Unspecified, may hold free values
(log entry 14). -/
def Obligations.FaultEntryRecords : Prop :=
  (∀ (k : FaultKind) (s : State),
    (raise k s).fault = some ⟨k, readReg .rn s⟩ ∧
    (raise k s).status = (if k = .halt then .halted else .faulted) ∧
    { raise k s with fault := s.fault, status := s.status } = s) ∧
  ∀ s t : State, s.status = .running → step s = .next t → t.status ≠ .running →
    ∃ (k : FaultKind) (u : State), u.status = .running ∧ u.fault = s.fault ∧ u.trace = s.trace ∧
      (t = raise k u ∨
        (Config.partialEffects = .unspecified ∧ ∃ range, t = drawPartial range (raise k u)))

/-- R10, R224: a single-element instruction either goes on, or raises a fault of its opcode and writes nothing else.
-/
def Obligations.SingleElementFaultWritesNothing : Prop :=
  ∀ (i : Instr) (s : State), singleElement i →
    ∃ u, exec i s = .next u ∧
      ((u.status = s.status ∧ u.fault = s.fault) ∨ ∃ k, k ∈ executeKinds i.opcode ∧ u = raise k s)

/-- R220: an instruction raises only the fault kinds the table gives its opcode. -/
def Obligations.OpcodeRaisesItsOwnKinds : Prop :=
  ∀ (i : Instr) (s u : State) (f : FaultRecord), s.fault = none → exec i s = .next u → u.fault = some f →
    f.kind ∈ executeKinds i.opcode

/-- R72: no step raises InvalidOpcode. -/
def Obligations.InvalidOpcodeNeverRaised : Prop :=
  ∀ (s t : State) (ip : Byte), recordAgrees s → step s = .next t → t.fault ≠ some ⟨.invalidOpcode, ip⟩

/-- R126: Interrupt is raised only by `int`, when the host answers PRINTLINE or READLINE with IOError, and then it
is. Rests on decision D17 (log entry 18). -/
def Obligations.InterruptOnlyOnHostError : Prop :=
  (∀ (i : Instr) (s u : State) (ip : Byte), s.fault = none → exec i s = .next u →
    u.fault = some ⟨.interrupt, ip⟩ →
    i.opcode = .int ∧
    ((readReg .rs s = Config.intCodes.printline ∧ printReply s = .ioError) ∨
     (readReg .rs s = Config.intCodes.readline ∧ lineAnswer s = .ioError))) ∧
  (∀ t v s, readReg .rs s = Config.intCodes.printline → printReply s = .ioError →
    exec (.int t v) s = .next (raise .interrupt (takeReply s))) ∧
  (∀ t v s, readReg .rs s = Config.intCodes.readline → lineAnswer s = .ioError →
    exec (.int t v) s = .next (raise .interrupt (takeLine s)))

/-- R225: a step ends the run Halted exactly when it fetched an `int` with RS = 0. HALT_CODE = 0 is decision D3 (log
entry 5). -/
def Obligations.HaltedOnlyByIntAtZero : Prop :=
  ∀ s t : State, s.status = .running → step s = .next t →
    (t.status = .halted ↔ ∃ w u, fetch s = .ok (w, u) ∧ (decodeWord w).opcode = .int ∧ readReg .rs s = 0)

/-- R100, R107: a running machine always takes a step, but where it fetched an `int` whose RS selects READLINE and
the host never answers; no instruction is refused. That a host which never answers leaves no move is the model's
reading of U14 (log entry 29). -/
def Obligations.RunningMachineSteps : Prop :=
  ∀ s : State, s.status = .running →
    ((∃ t, step s = .next t) ∨
     (step s = .fault .hostSilent ∧ lineAnswer s = .silent ∧ readReg .rs s = Config.intCodes.readline ∧
      ∃ w u, fetch s = .ok (w, u) ∧ (decodeWord w).opcode = .int))

/-! ### `int` -/

/-- R121: with RS = 0, `int` of any fields ends the run Halted and changes nothing else. HALT_CODE = 0 is decision D3
(log entry 5). -/
def Obligations.IntHaltsAtZero : Prop :=
  ∀ t v s, readReg .rs s = 0 →
    ∃ u, exec (.int t v) s = .next u ∧ u.status = .halted ∧ u.fault = some ⟨.halt, readReg .rn s⟩ ∧
      { u with status := s.status, fault := s.fault } = s

/-- R122: PRINTLINE hands the elements from index R0 to the tail to the host, and changes nothing of the block. Rests
on decision D15 (log entry 16); where the host's replies stand is the model's choice (log entries 28 and 30). -/
def Obligations.IntPrintsLine : Prop :=
  ∀ t v s, readReg .rs s = Config.intCodes.printline → printReply s = .accepted →
    ∃ u, exec (.int t v) s = .next u ∧ u.output = s.output ++ [s.stack.drop (readReg .r0 s).toNat] ∧
      u.regs = s.regs ∧ u.stack = s.stack ∧ runSame s u ∧ lineSame s u ∧
      u.printReplies = s.printReplies.tail ∧ u.printsSent = s.printsSent + 1

/-- R123: READLINE pushes min(R0, length) bytes of the line in order and stores the count in R0. Rests on decision
D16 (log entry 17); where the host's answers stand is the model's choice (log entry 28). -/
def Obligations.IntReadsLine : Prop :=
  ∀ t v s bytes, readReg .rs s = Config.intCodes.readline → lineAnswer s = .line bytes →
    roomFor (min (readReg .r0 s).toNat bytes.length) s →
    ∃ u, exec (.int t v) s = .next u ∧
      u.stack = s.stack ++ bytes.take (min (readReg .r0 s).toNat bytes.length) ∧
      (readReg .rd u).toNat = (readReg .rd s).toNat + min (readReg .r0 s).toNat bytes.length ∧
      (readReg .r0 u).toNat = min (readReg .r0 s).toNat bytes.length ∧
      regsSameExcept [.r0, .rd] s u ∧ runSame s u ∧ printSame s u ∧
      u.lineAnswers = s.lineAnswers.tail ∧ u.linesAsked = s.linesAsked + 1

/-- R123, R224: a READLINE whose push of byte `j` fails ends with StackOverflow; the bytes before it stay pushed and
R0 keeps its old value, or the stack, RD and R0 are open, as PARTIAL_EFFECTS says (decision D12, log entry 14). How
many bytes READLINE pushes is decision D16 (log entry 17). -/
def Obligations.IntReadStopsAtFullStack : Prop :=
  ∀ t v s bytes j, readReg .rs s = Config.intCodes.readline → lineAnswer s = .line bytes →
    j < min (readReg .r0 s).toNat bytes.length → roomFor j s → ¬ roomFor (j + 1) s →
    ∃ u, exec (.int t v) s = .next u ∧ endedBy .stackOverflow (readReg .rn s) u ∧ u.code = s.code ∧ u.trace = s.trace ∧
      leftByFault [.r0] j
        (u.stack = s.stack ++ bytes.take j ∧ (readReg .rd u).toNat = (readReg .rd s).toNat + j ∧
          regsSameExcept [.rd] s u) s u

/-- U14 (the model's stop, log entry 29): a READLINE that the host never answers has no move. -/
def Obligations.IntHeldBySilentHost : Prop :=
  ∀ t v s, readReg .rs s = Config.intCodes.readline → lineAnswer s = .silent →
    exec (.int t v) s = .fault .hostSilent

/-- R124: every other RS value raises Unimplemented, with no other change. -/
def Obligations.IntUnimplementedSelector : Prop :=
  ∀ t v s, readReg .rs s ≠ 0 → readReg .rs s ≠ Config.intCodes.printline →
    readReg .rs s ≠ Config.intCodes.readline → exec (.int t v) s = .next (raise .unimplemented s)

/-! ### `set`, `psh`, `pop` -/

/-- R140: `set rT imm` writes the 8-bit field to its target and nothing else; a target of 13..15 faults. -/
def Obligations.SetLoadsImmediate : Prop :=
  encodedBy 0x1 .set ∧
  ∀ t m s,
    (12 < t.toNat → exec (.set t m) s = .next (raise .invalidTarget s)) ∧
    (∀ r : Reg, t.toNat = r.id → writesOnly r m s (exec (.set t m) s))

/-- R141, R142: the range of two registers is every id from the smaller to the larger, in ascending order. -/
def Obligations.RegisterRangeAscends : Prop :=
  ∀ a b : Reg, (regRange a b).map Reg.id = List.range' (min a.id b.id) (max a.id b.id - min a.id b.id + 1)

/-- R141, R255: where every push succeeds, `psh` appends the registers of the range in ascending order, RD read as
the earlier pushes have advanced it, raises RD by their number, and changes nothing else. Rests on decision D11 (log
entry 13). -/
def Obligations.PshPushesRange : Prop :=
  ∀ t v (rt rv : Reg) s, t.toNat = rt.id → v.toNat = rv.id → roomFor (regRange rt rv).length s →
    ∃ u, exec (.psh t v) s = .next u ∧ u.stack = s.stack ++ pushedValues (regRange rt rv) s ∧
      (readReg .rd u).toNat = (readReg .rd s).toNat + (regRange rt rv).length ∧
      regsSameExcept [.rd] s u ∧ restSame s u

/-- R141, R224: a `psh` whose push `k` fails ends with StackOverflow; the elements before it stay pushed, or are
open, as PARTIAL_EFFECTS says (decision D12, log entry 14). That a register is read when its element is pushed is
decision D11 (R255, log entry 13). -/
def Obligations.PshStopsAtFullStack : Prop :=
  ∀ t v (rt rv : Reg) s k, t.toNat = rt.id → v.toNat = rv.id → k < (regRange rt rv).length →
    roomFor k s → ¬ roomFor (k + 1) s →
    ∃ u, exec (.psh t v) s = .next u ∧ endedBy .stackOverflow (readReg .rn s) u ∧ u.code = s.code ∧ u.trace = s.trace ∧
      printSame s u ∧ lineSame s u ∧
      leftByFault (regRange rt rv) k
        (u.stack = s.stack ++ (pushedValues (regRange rt rv) s).take k ∧
          (readReg .rd u).toNat = (readReg .rd s).toNat + k ∧ regsSameExcept [.rd] s u) s u

/-- R142, R255: where every pop succeeds, `pop` takes one element per register from the tail down, the largest id
first; RD counts down, from the popped value once RD itself has been popped into; nothing else changes. Rests on
decision D11 (log entry 13). -/
def Obligations.PopPopsRange : Prop :=
  ∀ t v (rt rv : Reg) s, t.toNat = rt.id → v.toNat = rv.id →
    popsSucceed (regRange rt rv).reverse (regRange rt rv).length s →
    ∃ u, exec (.pop t v) s = .next u ∧
      u.stack = s.stack.take (s.stack.length - (regRange rt rv).length) ∧
      (readReg .rd u).toNat = depthBeforePop (regRange rt rv).reverse s (regRange rt rv).length ∧
      (∀ j r, (regRange rt rv).reverse[j]? = some r → r ≠ .rd → readReg r u = poppedAt s j) ∧
      regsSameExcept (.rd :: regRange rt rv) s u ∧ restSame s u

/-- R142, R59, R224: a `pop` whose pop `k` meets an empty stack or RD = 0 ends with POP_UNDERFLOW_FAULT; the elements
before it stay popped and assigned, or are open, as PARTIAL_EFFECTS says (decision D12, log entry 14). The kind is
decision D7 (log entry 9). fault_ip is RN as it is at this moment (R223), so it is the popped value where an element
before the fault was popped into RN: there R221's words 'the value after the fetch advance' read otherwise, and that
R223 is followed is the model's reading (log entry 22). RD's course over the pops, which settles the failing one, is
decision D11 (R255, log entry 13), and that the failing pop changes nothing is decision D26 (log entry 26). -/
def Obligations.PopStopsAtUnderflow : Prop :=
  ∀ t v (rt rv : Reg) s k, t.toNat = rt.id → v.toNat = rv.id → k < (regRange rt rv).length →
    popsSucceed (regRange rt rv).reverse k s → ¬ popsSucceed (regRange rt rv).reverse (k + 1) s →
    ∃ u, exec (.pop t v) s = .next u ∧
      endedBy popUnderflowKind (rnAfterPops (regRange rt rv).reverse s k) u ∧ u.code = s.code ∧ u.trace = s.trace ∧
      printSame s u ∧ lineSame s u ∧
      leftByFault (regRange rt rv) k
        (u.stack = s.stack.take (s.stack.length - k) ∧
          (readReg .rd u).toNat = depthBeforePop (regRange rt rv).reverse s k ∧
          (∀ j r, ((regRange rt rv).reverse.take k)[j]? = some r → r ≠ .rd → readReg r u = poppedAt s j) ∧
          regsSameExcept (.rd :: (regRange rt rv).reverse.take k) s u) s u

/-- R142's corner case: where RD is not in the range, `psh rA rB` that succeeds, followed by `pop rA rB`, restores
every register of the range and indeed the whole state. -/
def Obligations.PopUndoesPsh : Prop :=
  ∀ t v (rt rv : Reg) s, t.toNat = rt.id → v.toNat = rv.id → .rd ∉ regRange rt rv →
    roomFor (regRange rt rv).length s →
    ∃ u, exec (.psh t v) s = .next u ∧ exec (.pop t v) u = .next s

/-! ### Arithmetic -/

/-- R160: checked unsigned addition. The two decode checks come in the order of the rule's pseudocode, which runs top
to bottom (R9). -/
def Obligations.AddChecked : Prop :=
  encodedBy 0x4 .add ∧ decodeFaults .add ∧
  ∀ t v (rt rv : Reg) s, t.toNat = rt.id → v.toNat = rv.id →
    (255 < (readReg rt s).toNat + (readReg rv s).toNat → exec (.add t v) s = .next (raise .registerOverflow s)) ∧
    ((readReg rt s).toNat + (readReg rv s).toNat ≤ 255 →
      writesOnly rt (BitVec.ofNat 8 ((readReg rt s).toNat + (readReg rv s).toNat)) s (exec (.add t v) s))

/-- R161: checked unsigned subtraction. The two decode checks come in the order of the rule's pseudocode, which runs
top to bottom (R9). -/
def Obligations.SubChecked : Prop :=
  encodedBy 0x5 .sub ∧ decodeFaults .sub ∧
  ∀ t v (rt rv : Reg) s, t.toNat = rt.id → v.toNat = rv.id →
    ((readReg rt s).toNat < (readReg rv s).toNat → exec (.sub t v) s = .next (raise .registerOverflow s)) ∧
    ((readReg rv s).toNat ≤ (readReg rt s).toNat →
      writesOnly rt (BitVec.ofNat 8 ((readReg rt s).toNat - (readReg rv s).toNat)) s (exec (.sub t v) s))

/-- R162: checked unsigned multiplication. The two decode checks come in the order of the rule's pseudocode, which
runs top to bottom (R9). -/
def Obligations.MulChecked : Prop :=
  encodedBy 0x6 .mul ∧ decodeFaults .mul ∧
  ∀ t v (rt rv : Reg) s, t.toNat = rt.id → v.toNat = rv.id →
    (255 < (readReg rt s).toNat * (readReg rv s).toNat → exec (.mul t v) s = .next (raise .registerOverflow s)) ∧
    ((readReg rt s).toNat * (readReg rv s).toNat ≤ 255 →
      writesOnly rt (BitVec.ofNat 8 ((readReg rt s).toNat * (readReg rv s).toNat)) s (exec (.mul t v) s))

/-- R163: checked unsigned division, the floor quotient; a divisor of 0 raises RegisterOverflow. The two decode
checks come in the order of the rule's pseudocode, which runs top to bottom (R9). -/
def Obligations.DivChecked : Prop :=
  encodedBy 0x7 .div ∧ decodeFaults .div ∧
  ∀ t v (rt rv : Reg) s, t.toNat = rt.id → v.toNat = rv.id →
    ((readReg rv s).toNat = 0 → exec (.div t v) s = .next (raise .registerOverflow s)) ∧
    ((readReg rv s).toNat ≠ 0 →
      writesOnly rt (BitVec.ofNat 8 ((readReg rt s).toNat / (readReg rv s).toNat)) s (exec (.div t v) s))

/-! ### Compare, conditional move, load -/

/-- R180: unsigned compare; the only effect is one of three pairwise distinct codes in RF. Which operand is the less
is decision D5 (log entry 7). -/
def Obligations.ChkWritesComparison : Prop :=
  encodedBy 0x8 .chk ∧ decodeFaults .chk ∧
  (Config.cmpCodes.eq ≠ Config.cmpCodes.lt ∧ Config.cmpCodes.eq ≠ Config.cmpCodes.gt ∧
    Config.cmpCodes.lt ≠ Config.cmpCodes.gt) ∧
  ∀ t v (rt rv : Reg) s, t.toNat = rt.id → v.toNat = rv.id →
    ((readReg rt s).toNat = (readReg rv s).toNat → writesOnly .rf Config.cmpCodes.eq s (exec (.chk t v) s)) ∧
    ((readReg rt s).toNat < (readReg rv s).toNat → writesOnly .rf Config.cmpCodes.lt s (exec (.chk t v) s)) ∧
    ((readReg rv s).toNat < (readReg rt s).toNat → writesOnly .rf Config.cmpCodes.gt s (exec (.chk t v) s))

/-- R181: move when RF = RC, nothing otherwise; both fields are decoded in either case. That it decodes in either
case is decision D9 (log entry 11). -/
def Obligations.CnsMovesWhenEqual : Prop :=
  encodedBy 0x9 .cns ∧ decodeFaults .cns ∧
  ∀ t v (rt rv : Reg) s, t.toNat = rt.id → v.toNat = rv.id →
    (readReg .rf s = readReg .rc s → writesOnly rt (readReg rv s) s (exec (.cns t v) s)) ∧
    (readReg .rf s ≠ readReg .rc s → exec (.cns t v) s = .next s)

/-- R182 (with R60): load the stack element at an index below Len, index 0 the bottom; an index of at least Len
raises StackInvalidAccess. Rests on decisions D13 and D14 (log entry 15). -/
def Obligations.LptLoadsStackElement : Prop :=
  encodedBy 0xA .lpt ∧ decodeFaults .lpt ∧
  ∀ t v (rt rv : Reg) s, t.toNat = rt.id → v.toNat = rv.id →
    (s.stack.length ≤ (readReg rv s).toNat → exec (.lpt t v) s = .next (raise .stackInvalidAccess s)) ∧
    (∀ b, s.stack[(readReg rv s).toNat]? = some b → writesOnly rt b s (exec (.lpt t v) s))

/-! ### Shifts and bitwise logic -/

/-- R200, R201: shift left, bits past bit 7 lost, never a fault; amounts of 8 and more as SHIFT_OVERSIZE says. The
amounts of 8 and more are decision D10 (log entry 12). -/
def Obligations.LshShiftsLeft : Prop :=
  encodedBy 0xB .lsh ∧ decodeFaults .lsh ∧
  ∀ t v (rt rv : Reg) s, t.toNat = rt.id → v.toNat = rv.id →
    match Config.shiftOversize with
    | .mask => writesOnly rt
        (BitVec.ofNat 8 (((readReg rt s).toNat <<< ((readReg rv s).toNat % 8)) % 256)) s (exec (.lsh t v) s)
    | .zero =>
      (8 ≤ (readReg rv s).toNat → writesOnly rt 0 s (exec (.lsh t v) s)) ∧
      ((readReg rv s).toNat < 8 → writesOnly rt
        (BitVec.ofNat 8 (((readReg rt s).toNat <<< (readReg rv s).toNat) % 256)) s (exec (.lsh t v) s))

/-- R200, R202: logical shift right, zeros entering at bit 7; amounts of 8 and more as SHIFT_OVERSIZE says. The
amounts of 8 and more are decision D10 (log entry 12). -/
def Obligations.RshShiftsRight : Prop :=
  encodedBy 0xC .rsh ∧ decodeFaults .rsh ∧
  ∀ t v (rt rv : Reg) s, t.toNat = rt.id → v.toNat = rv.id →
    match Config.shiftOversize with
    | .mask => writesOnly rt
        (BitVec.ofNat 8 ((readReg rt s).toNat >>> ((readReg rv s).toNat % 8))) s (exec (.rsh t v) s)
    | .zero =>
      (8 ≤ (readReg rv s).toNat → writesOnly rt 0 s (exec (.rsh t v) s)) ∧
      ((readReg rv s).toNat < 8 → writesOnly rt
        (BitVec.ofNat 8 ((readReg rt s).toNat >>> (readReg rv s).toNat)) s (exec (.rsh t v) s))

/-- R203: bitwise AND. The two decode checks come in the order of the rule's pseudocode, which runs top to bottom
(R9). -/
def Obligations.AndIsBitwise : Prop :=
  encodedBy 0xD .and ∧ decodeFaults .and ∧
  ∀ t v (rt rv : Reg) s, t.toNat = rt.id → v.toNat = rv.id →
    writesOnly rt (BitVec.ofNat 8 ((readReg rt s).toNat &&& (readReg rv s).toNat)) s (exec (.and t v) s)

/-- R204: bitwise OR. The two decode checks come in the order of the rule's pseudocode, which runs top to bottom
(R9). -/
def Obligations.BorIsBitwise : Prop :=
  encodedBy 0xE .bor ∧ decodeFaults .bor ∧
  ∀ t v (rt rv : Reg) s, t.toNat = rt.id → v.toNat = rv.id →
    writesOnly rt (BitVec.ofNat 8 ((readReg rt s).toNat ||| (readReg rv s).toNat)) s (exec (.bor t v) s)

/-- R205: bitwise exclusive OR. The two decode checks come in the order of the rule's pseudocode, which runs top to
bottom (R9). -/
def Obligations.XorIsBitwise : Prop :=
  encodedBy 0xF .xor ∧ decodeFaults .xor ∧
  ∀ t v (rt rv : Reg) s, t.toNat = rt.id → v.toNat = rv.id →
    writesOnly rt (BitVec.ofNat 8 ((readReg rt s).toNat ^^^ (readReg rv s).toNat)) s (exec (.xor t v) s)

/-! ### Invariants every step keeps -/

/-- R32, R55: no step changes the bytecode. -/
def Obligations.StepKeepsBytecode : Prop :=
  ∀ (code : List Word) (s t : State), s.code = code → step s = .next t → t.code = code

/-- R33, R34: every step keeps the status and the fault record in agreement. -/
def Obligations.StepKeepsRecordAgreement : Prop :=
  ∀ s t : State, recordAgrees s → step s = .next t → recordAgrees t

/-- R30, R58: every step keeps the stack of a running machine within a finite STACK_CAPACITY. Rests on decision D18
(log entry 19). -/
def Obligations.StepKeepsStackCapacity : Prop :=
  ∀ s t : State, withinCapacity s → step s = .next t → withinCapacity t

/-- R24, R57: a step that goes on, and whose instruction does not name RD as its destination, keeps RD equal to the
stack's length. That a direct write of RD is not checked is conflict C5 (log entry 32). -/
def Obligations.StepKeepsDepthMirror : Prop :=
  ∀ s t : State, depthMirrors s →
    (∀ w, s.code[(readReg .rn s).toNat]? = some w → ¬ namesDestination (decodeWord w) .rd) →
    step s = .next t → t.status = .running → depthMirrors t

/-- R250 with log entry 2: reset is the creation of a context, here from the empty bytecode (the model's choice), and
a fresh context meets the three invariants, `State.reset` among them. -/
def Obligations.FreshContextMeetsInvariants : Prop :=
  State.reset = State.create [] ∧
  (recordAgrees State.reset ∧ withinCapacity State.reset ∧ depthMirrors State.reset) ∧
  ∀ code : List Word,
    recordAgrees (State.create code) ∧ withinCapacity (State.create code) ∧ depthMirrors (State.create code)

/-! ### The run loop -/

/-- R110, R112, R113: a run that has ended stays ended with the same context, however many more steps are allowed,
and its status is Halted or Faulted; running out of the step limit is never an end: the machine is still Running. -/
def Obligations.EndedRunStaysEnded : Prop :=
  ∀ (n m : Nat) (s t : State),
    (runFor n s = .ended t → runFor (n + m) s = .ended t ∧ t.status ≠ .running) ∧
    (runFor n s = .unfinished t → t.status = .running)

/-! ### The assembler -/

/-- R83 to R85: a line of a mnemonic and two register names, one space between, assembles to the word of the opcode
and the two ids; for `set` the second name gives its id as the literal. -/
def Obligations.RegisterLineAssembles : Prop :=
  ∀ (o : Opcode) (rt rv : Reg),
    assembleLine (mnemonicText o ++ ' ' :: (regText rt ++ ' ' :: regText rv)) =
      .ok (encodeFields o (BitVec.ofNat 4 rt.id) (BitVec.ofNat 8 rv.id))

/-- R84, R85: every word the assembler produces decodes to an instruction whose fields are legal. -/
def Obligations.AssembledWordIsWellFormed : Prop :=
  ∀ (l : Text) (w : Word), assembleLine l = .ok w → (decodeWord w).wellFormed = true

/-- R86: where a file assembles, word k of the bytecode is the k-th non-skipped line; where it does not, the error is
that of the first erroring line, with its number and raw text. What is trimmed is the model's reading (log entry 25).
-/
def Obligations.FileAssemblesLineByLine : Prop :=
  ∀ lines : List Text,
    (∀ ws, assembleFrom 0 lines = .ok ws →
      (lines.filter fun l => !skipsLine l).map (fun l => assembleLine (trimText l)) = ws.map .ok) ∧
    (∀ e, assembleFrom 0 lines = .error e →
      lines[e.line]? = some e.text ∧ skipsLine e.text = false ∧
      assembleLine (trimText e.text) = .error e.kind ∧
      ∀ j l, j < e.line → lines[j]? = some l → skipsLine l = true ∨ ∃ w, assembleLine (trimText l) = .ok w)

/-! ### The instruction pointer a fault records -/

/-- R221, R105: below index 255, `fault_ip` is the index that was being fetched for FetchInvalid, and the index plus
one for every fault raised in decode or execute, whatever PARTIAL_EFFECTS says and whatever registers `psh` names; a
`pop` whose range holds RN is apart, since it may have popped into RN before the fault. At index 255, a fetch whose
target field is not RN records 255. That the fetch advance is kept is decision D21 (log entry 22). -/
def Obligations.FaultIpIsRnAtFault : Prop :=
  ∀ (s t : State) (f : FaultRecord), s.status = .running → s.fault = none → step s = .next t → t.fault = some f →
    (s.code[(readReg .rn s).toNat]? = none → f = ⟨.fetchInvalid, readReg .rn s⟩) ∧
    ∀ w, s.code[(readReg .rn s).toNat]? = some w →
      (readReg .rn s = 255 → targetBits w ≠ 8 → f = ⟨.fetchNext, 255⟩) ∧
      (readReg .rn s ≠ 255 → ((decodeWord w).opcode = .pop → ¬ namesDestination (decodeWord w) .rn) →
        f.ip.toNat = (readReg .rn s).toNat + 1)
end

