-- ==== Sys2Proof/Laws/State.lean ====
section
/-! SUPPORT. One lemma per field per update of the state, so that no later proof unfolds a record update, and the
read-after-write laws of the register file. -/

namespace Sys2Proof.Machine

variable (s : State) (r : Reg) (v : Byte)

/-! ### Register writes -/

@[simp] theorem writeReg_stack : (writeReg r v s).stack = s.stack := rfl
@[simp] theorem writeReg_code : (writeReg r v s).code = s.code := rfl
@[simp] theorem writeReg_status : (writeReg r v s).status = s.status := rfl
@[simp] theorem writeReg_fault : (writeReg r v s).fault = s.fault := rfl
@[simp] theorem writeReg_trace : (writeReg r v s).trace = s.trace := rfl
@[simp] theorem writeReg_output : (writeReg r v s).output = s.output := rfl
@[simp] theorem writeReg_lineAnswers : (writeReg r v s).lineAnswers = s.lineAnswers := rfl
@[simp] theorem writeReg_printReplies : (writeReg r v s).printReplies = s.printReplies := rfl
@[simp] theorem writeReg_linesAsked : (writeReg r v s).linesAsked = s.linesAsked := rfl
@[simp] theorem writeReg_printsSent : (writeReg r v s).printsSent = s.printsSent := rfl
@[simp] theorem writeReg_draws : (writeReg r v s).draws = s.draws := rfl

@[simp] theorem regIndex_val : (regIndex r).val = r.id := by cases r <;> rfl

theorem reg_id_lt : r.id < 13 := by cases r <;> decide

theorem reg_id_injective {q r : Reg} (h : q.id = r.id) : q = r := by
  cases q <;> cases r <;> first | rfl | exact absurd h (by decide)

@[simp] theorem readReg_writeReg_same : readReg r (writeReg r v s) = v := by
  simp [readReg, writeReg]

theorem readReg_writeReg_ne {q r : Reg} (h : q ≠ r) (v : Byte) (s : State) :
    readReg q (writeReg r v s) = readReg q s := by
  have hne : r.id ≠ q.id := fun e => h (reg_id_injective e.symm)
  simp [readReg, writeReg, hne]

theorem readReg_writeReg (q r : Reg) (v : Byte) (s : State) :
    readReg q (writeReg r v s) = if q = r then v else readReg q s := by
  split
  · next h => rw [h, readReg_writeReg_same]
  · next h => exact readReg_writeReg_ne h v s

@[simp] theorem writeReg_entry13 : (writeReg r v s).regs[13] = s.regs[13] := by
  have h := reg_id_lt r
  have hne : r.id ≠ 13 := by omega
  simp [writeReg, hne]

/-! ### Updates that leave the registers alone -/

variable (st : List Byte)

@[simp] theorem readReg_setStack : readReg r (setStack st s) = readReg r s := rfl
@[simp] theorem setStack_regs : (setStack st s).regs = s.regs := rfl
@[simp] theorem setStack_stack : (setStack st s).stack = st := rfl
@[simp] theorem setStack_code : (setStack st s).code = s.code := rfl
@[simp] theorem setStack_status : (setStack st s).status = s.status := rfl
@[simp] theorem setStack_fault : (setStack st s).fault = s.fault := rfl
@[simp] theorem setStack_trace : (setStack st s).trace = s.trace := rfl
@[simp] theorem setStack_output : (setStack st s).output = s.output := rfl
@[simp] theorem setStack_lineAnswers : (setStack st s).lineAnswers = s.lineAnswers := rfl
@[simp] theorem setStack_printReplies : (setStack st s).printReplies = s.printReplies := rfl
@[simp] theorem setStack_linesAsked : (setStack st s).linesAsked = s.linesAsked := rfl
@[simp] theorem setStack_printsSent : (setStack st s).printsSent = s.printsSent := rfl
@[simp] theorem setStack_draws : (setStack st s).draws = s.draws := rfl
@[simp] theorem setStack_setStack (st' : List Byte) : setStack st (setStack st' s) = setStack st s := rfl
@[simp] theorem setStack_self : setStack s.stack s = s := rfl

/-- Register writes and stack changes commute. -/
@[simp] theorem setStack_writeReg : setStack st (writeReg r v s) = writeReg r v (setStack st s) := rfl

@[simp] theorem readReg_with_trace (t : Option Word) : readReg r { s with trace := t } = readReg r s := rfl

/-! ### Fault entry -/

variable (k : FaultKind)

@[simp] theorem raise_regs : (raise k s).regs = s.regs := rfl
@[simp] theorem raise_stack : (raise k s).stack = s.stack := rfl
@[simp] theorem raise_code : (raise k s).code = s.code := rfl
@[simp] theorem raise_status : (raise k s).status = if k = .halt then .halted else .faulted := rfl
@[simp] theorem raise_fault : (raise k s).fault = some ⟨k, readReg .rn s⟩ := rfl
@[simp] theorem raise_trace : (raise k s).trace = s.trace := rfl
@[simp] theorem raise_output : (raise k s).output = s.output := rfl
@[simp] theorem raise_lineAnswers : (raise k s).lineAnswers = s.lineAnswers := rfl
@[simp] theorem raise_printReplies : (raise k s).printReplies = s.printReplies := rfl
@[simp] theorem raise_linesAsked : (raise k s).linesAsked = s.linesAsked := rfl
@[simp] theorem raise_printsSent : (raise k s).printsSent = s.printsSent := rfl
@[simp] theorem raise_draws : (raise k s).draws = s.draws := rfl
@[simp] theorem readReg_raise : readReg r (raise k s) = readReg r s := rfl

theorem raise_status_ne_running : (raise k s).status ≠ .running := by
  simp only [raise_status]; split <;> simp

/-! ### The host port -/

@[simp] theorem readReg_takeLine : readReg r (takeLine s) = readReg r s := rfl
@[simp] theorem takeLine_regs : (takeLine s).regs = s.regs := rfl
@[simp] theorem takeLine_stack : (takeLine s).stack = s.stack := rfl
@[simp] theorem takeLine_code : (takeLine s).code = s.code := rfl
@[simp] theorem takeLine_status : (takeLine s).status = s.status := rfl
@[simp] theorem takeLine_fault : (takeLine s).fault = s.fault := rfl
@[simp] theorem takeLine_trace : (takeLine s).trace = s.trace := rfl
@[simp] theorem takeLine_output : (takeLine s).output = s.output := rfl
@[simp] theorem takeLine_lineAnswers : (takeLine s).lineAnswers = s.lineAnswers.tail := rfl
@[simp] theorem takeLine_printReplies : (takeLine s).printReplies = s.printReplies := rfl
@[simp] theorem takeLine_linesAsked : (takeLine s).linesAsked = s.linesAsked + 1 := rfl
@[simp] theorem takeLine_printsSent : (takeLine s).printsSent = s.printsSent := rfl
@[simp] theorem takeLine_draws : (takeLine s).draws = s.draws := rfl

@[simp] theorem readReg_takeReply : readReg r (takeReply s) = readReg r s := rfl
@[simp] theorem takeReply_regs : (takeReply s).regs = s.regs := rfl
@[simp] theorem takeReply_stack : (takeReply s).stack = s.stack := rfl
@[simp] theorem takeReply_code : (takeReply s).code = s.code := rfl
@[simp] theorem takeReply_status : (takeReply s).status = s.status := rfl
@[simp] theorem takeReply_fault : (takeReply s).fault = s.fault := rfl
@[simp] theorem takeReply_trace : (takeReply s).trace = s.trace := rfl
@[simp] theorem takeReply_output : (takeReply s).output = s.output := rfl
@[simp] theorem takeReply_lineAnswers : (takeReply s).lineAnswers = s.lineAnswers := rfl
@[simp] theorem takeReply_printReplies : (takeReply s).printReplies = s.printReplies.tail := rfl
@[simp] theorem takeReply_linesAsked : (takeReply s).linesAsked = s.linesAsked := rfl
@[simp] theorem takeReply_printsSent : (takeReply s).printsSent = s.printsSent + 1 := rfl
@[simp] theorem takeReply_draws : (takeReply s).draws = s.draws := rfl

variable (bytes : List Byte)

@[simp] theorem readReg_acceptOutput : readReg r (acceptOutput bytes s) = readReg r s := rfl
@[simp] theorem acceptOutput_regs : (acceptOutput bytes s).regs = s.regs := rfl
@[simp] theorem acceptOutput_stack : (acceptOutput bytes s).stack = s.stack := rfl
@[simp] theorem acceptOutput_code : (acceptOutput bytes s).code = s.code := rfl
@[simp] theorem acceptOutput_status : (acceptOutput bytes s).status = s.status := rfl
@[simp] theorem acceptOutput_fault : (acceptOutput bytes s).fault = s.fault := rfl
@[simp] theorem acceptOutput_trace : (acceptOutput bytes s).trace = s.trace := rfl
@[simp] theorem acceptOutput_output : (acceptOutput bytes s).output = s.output ++ [bytes] := rfl
@[simp] theorem acceptOutput_lineAnswers : (acceptOutput bytes s).lineAnswers = s.lineAnswers := rfl
@[simp] theorem acceptOutput_printReplies : (acceptOutput bytes s).printReplies = s.printReplies := rfl
@[simp] theorem acceptOutput_linesAsked : (acceptOutput bytes s).linesAsked = s.linesAsked := rfl
@[simp] theorem acceptOutput_printsSent : (acceptOutput bytes s).printsSent = s.printsSent := rfl
@[simp] theorem acceptOutput_draws : (acceptOutput bytes s).draws = s.draws := rfl

end Sys2Proof.Machine
end

