-- ==== Sys2Proof/Laws/Ops.lean ====
section
/-! SUPPORT. One lemma per shared operation that says everything the operation can do; later proofs cite these and
do not unfold the operations. -/

namespace Sys2Proof.Machine

/-! ### Operand forms -/

theorem reg_ofId_id (r : Reg) : Reg.ofId r.id = some r := by cases r <;> rfl

theorem reg_ofId_none_iff (n : Nat) : Reg.ofId n = none ↔ 12 < n := by
  rcases n with _|_|_|_|_|_|_|_|_|_|_|_|_|n <;> simp [Reg.ofId]

theorem reg_ofId_some {n : Nat} {r : Reg} (h : Reg.ofId n = some r) : n = r.id := by
  rcases n with _|_|_|_|_|_|_|_|_|_|_|_|_|n <;> simp [Reg.ofId] at h <;> subst h <;> rfl

theorem reg_ofId_isSome_false (n : Nat) : (Reg.ofId n).isSome = false ↔ 12 < n := by
  rw [← reg_ofId_none_iff]; simp

theorem reg_ofId_isSome_true (n : Nat) : (Reg.ofId n).isSome = true ↔ n ≤ 12 := by
  have := reg_ofId_isSome_false n
  cases h : (Reg.ofId n).isSome <;> simp [h] at this ⊢ <;> omega

/-- `DecodeTarget` and `DecodeValueReg` in sequence: one of two faults, or the two registers (R70). -/
theorem withOperands_cases (t : Nibble) (v : Byte) (s : State) (body : Reg → Reg → Result) :
    (12 < t.toNat ∧ withOperands t v s body = .next (raise .invalidTarget s)) ∨
    (t.toNat ≤ 12 ∧ 12 < v.toNat ∧ withOperands t v s body = .next (raise valueRegKind s)) ∨
    ∃ rt rv, t.toNat = rt.id ∧ v.toNat = rv.id ∧ withOperands t v s body = body rt rv := by
  unfold withOperands withTarget decodeTarget decodeValueReg takeFault
  cases ht : Reg.ofId t.toNat with
  | none => exact .inl ⟨(reg_ofId_none_iff _).mp ht, rfl⟩
  | some rt =>
    have hlt := reg_ofId_some ht
    have := reg_id_lt rt
    cases hv : Reg.ofId v.toNat with
    | none => exact .inr (.inl ⟨by omega, (reg_ofId_none_iff _).mp hv, rfl⟩)
    | some rv => exact .inr (.inr ⟨rt, rv, hlt, reg_ofId_some hv, rfl⟩)

theorem withOperands_ok {t : Nibble} {v : Byte} {rt rv : Reg} (ht : t.toNat = rt.id) (hv : v.toNat = rv.id)
    (s : State) (body : Reg → Reg → Result) : withOperands t v s body = body rt rv := by
  simp [withOperands, withTarget, decodeTarget, decodeValueReg, ht, hv, reg_ofId_id]

theorem withOperands_badTarget {t : Nibble} (ht : 12 < t.toNat) (v : Byte) (s : State)
    (body : Reg → Reg → Result) : withOperands t v s body = .next (raise .invalidTarget s) := by
  simp [withOperands, withTarget, decodeTarget, (reg_ofId_none_iff _).mpr ht, takeFault]

theorem withOperands_badValue {t : Nibble} {v : Byte} (ht : t.toNat ≤ 12) (hv : 12 < v.toNat) (s : State)
    (body : Reg → Reg → Result) : withOperands t v s body = .next (raise valueRegKind s) := by
  rcases withOperands_cases t v s body with h | h | ⟨_, rv, _, h, _⟩
  · omega
  · exact h.2.2
  · have := reg_id_lt rv; omega

theorem withTarget_cases (t : Nibble) (s : State) (body : Reg → Result) :
    (12 < t.toNat ∧ withTarget t s body = .next (raise .invalidTarget s)) ∨
    ∃ rt, t.toNat = rt.id ∧ withTarget t s body = body rt := by
  unfold withTarget decodeTarget takeFault
  cases ht : Reg.ofId t.toNat with
  | none => exact .inl ⟨(reg_ofId_none_iff _).mp ht, rfl⟩
  | some rt => exact .inr ⟨rt, reg_ofId_some ht, rfl⟩

theorem withTarget_ok {t : Nibble} {rt : Reg} (ht : t.toNat = rt.id) (s : State) (body : Reg → Result) :
    withTarget t s body = body rt := by
  simp [withTarget, decodeTarget, ht, reg_ofId_id]

theorem valueRegKind_cases : valueRegKind = .invalidTarget ∨ valueRegKind = .invalidValue := by
  unfold valueRegKind; split <;> simp

theorem mem_regRange (a b r : Reg) :
    r ∈ regRange a b ↔ min a.id b.id ≤ r.id ∧ r.id ≤ max a.id b.id := by
  have hall : r ∈ Reg.all := by cases r <;> simp [Reg.all]
  simp only [regRange, List.mem_filter, hall, true_and, Bool.and_eq_true, decide_eq_true_eq]

theorem regRange_nodup (a b : Reg) : (regRange a b).Nodup :=
  List.Nodup.filter _ (by decide)

/-! ### The stack controller -/

theorem popUnderflowKind_cases : popUnderflowKind = .stackUnderflow ∨ popUnderflowKind = .stackOverflow := by
  unfold popUnderflowKind; split <;> simp

theorem popUnderflowKind_ne_halt : popUnderflowKind ≠ .halt := by
  rcases popUnderflowKind_cases with h | h <;> rw [h] <;> decide

/-- A stack is full exactly where a finite capacity equals its length (R58). -/
theorem stackFull_iff (s : State) :
    stackFull s = true ↔ ∃ c, Config.stackCapacity = some c ∧ s.stack.length = c.size := by
  unfold stackFull
  cases Config.stackCapacity with
  | none => simp
  | some c => have := c.size_ge; simp; omega

/-- Everything `PushChecked` can do (R58). -/
theorem pushChecked_cases (v : Byte) (s : State) :
    (roomFor 1 s ∧
      pushChecked v s = .ok (writeReg .rd (readReg .rd s + 1) (setStack (s.stack ++ [v]) s))) ∨
    (¬ roomFor 1 s ∧ pushChecked v s = .error .stackOverflow) := by
  have hfull := stackFull_iff s
  unfold pushChecked roomFor
  by_cases h1 : 255 < (readReg .rd s).toNat + 1
  · exact .inr ⟨by omega, by simp [h1]⟩
  · cases hf : stackFull s
    · refine .inl ⟨⟨by omega, fun c hc j hj => ?_⟩, by simp [h1]⟩
      have : j = 0 := by omega
      subst this
      exact fun e => by simp [hf] at hfull; exact hfull c hc e
    · refine .inr ⟨fun h => ?_, by simp [h1]⟩
      obtain ⟨c, hc, e⟩ := hfull.mp hf
      exact h.2 c hc 0 (by omega) e

/-- Everything `PopChecked` can do (R59). -/
theorem popChecked_cases (s : State) :
    (∃ st v, s.stack = st ++ [v] ∧ readReg .rd s ≠ 0 ∧
      popChecked s = .ok (v, writeReg .rd (readReg .rd s - 1) (setStack st s))) ∨
    ((s.stack = [] ∨ readReg .rd s = 0) ∧ popChecked s = .error popUnderflowKind) := by
  unfold popChecked
  rcases List.eq_nil_or_concat s.stack with h | ⟨st, v, h⟩
  · exact .inr ⟨.inl h, by simp [h]⟩
  · by_cases h0 : readReg .rd s = 0
    · exact .inr ⟨.inr h0, by simp [h, h0]⟩
    · rw [List.concat_eq_append] at h
      exact .inl ⟨st, v, h, h0, by simp only [h, List.getLast?_concat, List.dropLast_concat, if_neg h0]⟩

/-- Everything `StackRead` can do (R60). -/
theorem stackRead_cases (i : Byte) (s : State) :
    (∃ h : i.toNat < s.stack.length, stackRead i s = .ok (s.stack[i.toNat])) ∨
    (s.stack.length ≤ i.toNat ∧ stackRead i s = .error .stackInvalidAccess) := by
  unfold stackRead
  by_cases h : i.toNat < s.stack.length
  · exact .inl ⟨h, by simp [h]⟩
  · exact .inr ⟨by omega, by simp [List.getElem?_eq_none (Nat.le_of_not_lt h)]⟩

/-! ### Multi-element instructions -/

/-- A predicate of the state a multi-element instruction has come to. -/
def resultHolds (P : State → Prop) : ElementsResult → Prop
  | .done s => P s
  | .raised _ _ s => P s

/-- What every push keeps, a sequence of pushes keeps. -/
theorem pushEach_keeps {α : Type} {P : State → Prop} (value : α → State → Byte)
    (hpush : ∀ v s, P s → roomFor 1 s →
      P (writeReg .rd (readReg .rd s + 1) (setStack (s.stack ++ [v]) s))) :
    ∀ (l : List α) (n : Nat) (s : State), P s → resultHolds P (pushEach value l n s)
  | [], _, _, h => h
  | a :: rest, n, s, h => by
    unfold pushEach
    rcases pushChecked_cases (value a s) s with ⟨hr, e⟩ | ⟨_, e⟩
    · rw [e]; exact pushEach_keeps value hpush rest (n + 1) _ (hpush _ _ h hr)
    · rw [e]; exact h

/-- What every pop keeps, a sequence of pops keeps. -/
theorem popEach_keeps {P : State → Prop}
    (hpop : ∀ (r : Reg) (st : List Byte) (v : Byte) (s : State), P s → s.stack = st ++ [v] → readReg .rd s ≠ 0 →
      P (writeReg r v (writeReg .rd (readReg .rd s - 1) (setStack st s)))) :
    ∀ (l : List Reg) (n : Nat) (s : State), P s → resultHolds P (popEach l n s)
  | [], _, _, h => h
  | r :: rest, n, s, h => by
    unfold popEach
    rcases popChecked_cases s with ⟨st, v, hs, h0, e⟩ | ⟨_, e⟩
    · rw [e]; exact popEach_keeps hpop rest (n + 1) _ (hpop r st v s h hs h0)
    · rw [e]; exact h

/-- A fault in a sequence of pushes is StackOverflow. -/
theorem pushEach_kind {α : Type} (value : α → State → Byte) :
    ∀ (l : List α) (n : Nat) (s : State) {k m u}, pushEach value l n s = .raised k m u → k = .stackOverflow
  | [], _, _, _, _, _, h => by simp [pushEach] at h
  | a :: rest, n, s, k, m, u, h => by
    unfold pushEach at h
    rcases pushChecked_cases (value a s) s with ⟨_, e⟩ | ⟨_, e⟩ <;> rw [e] at h
    · exact pushEach_kind value rest (n + 1) _ h
    · simp at h; exact h.1.symm

/-- A fault in a sequence of pops is the underflow fault. -/
theorem popEach_kind :
    ∀ (l : List Reg) (n : Nat) (s : State) {k m u}, popEach l n s = .raised k m u → k = popUnderflowKind
  | [], _, _, _, _, _, h => by simp [popEach] at h
  | r :: rest, n, s, k, m, u, h => by
    unfold popEach at h
    rcases popChecked_cases s with ⟨st, v, _, _, e⟩ | ⟨_, e⟩ <;> rw [e] at h
    · exact popEach_kind rest (n + 1) _ h
    · simp at h; exact h.1.symm

/-- What register writes and the change of the stack keep, a partial effect keeps (R224). -/
theorem settlePartial_keeps {P : State → Prop} (hreg : ∀ r v s, P s → P (writeReg r v s))
    (hdraw : ∀ st n s, P s → P (setStack st { s with draws := n })) (range : List Reg) (n : Nat) (s : State)
    (h : P s) : P (settlePartial range n s) := by
  have hfree : ∀ (l : List Reg) (m : Nat) (u : State), P u → P (writeFree m l u) := by
    intro l
    induction l with
    | nil => intro m u hu; exact hu
    | cons r rest ih => intro m u hu; exact ih m _ (hreg _ _ _ hu)
  unfold settlePartial
  split
  · exact h
  · split
    · exact h
    · exact hfree _ _ _ (hdraw _ _ _ h)

/-- A fault before any element is done is a plain one. -/
@[simp] theorem raisePartial_zero (k : FaultKind) (range : List Reg) (s : State) :
    raisePartial k range 0 s = raise k s := rfl

/-- Partial effects reach neither the status, the record, the bytecode nor the trace word (R224). -/
theorem raisePartial_run (k : FaultKind) (range : List Reg) (n : Nat) (s : State) :
    (raisePartial k range n s).status = (raise k s).status ∧
    (raisePartial k range n s).fault = some ⟨k, readReg .rn s⟩ ∧
    (raisePartial k range n s).code = s.code ∧ (raisePartial k range n s).trace = s.trace :=
  settlePartial_keeps
    (P := fun u => u.status = (raise k s).status ∧ u.fault = some ⟨k, readReg .rn s⟩ ∧ u.code = s.code ∧
      u.trace = s.trace)
    (fun _ _ _ h => h) (fun _ _ _ h => h) range n (raise k s) ⟨rfl, rfl, rfl, rfl⟩

@[simp] theorem raisePartial_status (k : FaultKind) (range : List Reg) (n : Nat) (s : State) :
    (raisePartial k range n s).status = if k = .halt then .halted else .faulted := (raisePartial_run k range n s).1

/-- The record holds RN at the time of the fault, whatever the registers then become (R221). -/
@[simp] theorem raisePartial_fault (k : FaultKind) (range : List Reg) (n : Nat) (s : State) :
    (raisePartial k range n s).fault = some ⟨k, readReg .rn s⟩ := (raisePartial_run k range n s).2.1

@[simp] theorem raisePartial_code (k : FaultKind) (range : List Reg) (n : Nat) (s : State) :
    (raisePartial k range n s).code = s.code := (raisePartial_run k range n s).2.2.1

@[simp] theorem raisePartial_trace (k : FaultKind) (range : List Reg) (n : Nat) (s : State) :
    (raisePartial k range n s).trace = s.trace := (raisePartial_run k range n s).2.2.2

theorem raisePartial_status_ne_running (k : FaultKind) (range : List Reg) (n : Nat) (s : State) :
    (raisePartial k range n s).status ≠ .running := by
  rw [raisePartial_status]; split <;> decide

/-- Either the fault's state as it is, or free values drawn on it (R224). -/
theorem raisePartial_cases (k : FaultKind) (range : List Reg) (n : Nat) (s : State) :
    raisePartial k range n s = raise k s ∨
    (Config.partialEffects = .unspecified ∧ raisePartial k range n s = drawPartial range (raise k s)) := by
  unfold raisePartial settlePartial
  split
  · exact .inl rfl
  · cases h : Config.partialEffects with
    | retained => exact .inl rfl
    | unspecified => exact .inr ⟨rfl, rfl⟩

/-! ### Fetch and retire -/

/-- Everything fetch can do (R101, R102). -/
theorem fetch_cases (s : State) :
    (s.code.length ≤ (readReg .rn s).toNat ∧ fetch s = .error .fetchInvalid) ∨
    (∃ w, s.code[(readReg .rn s).toNat]? = some w ∧ readReg .rn s = 255 ∧ targetBits w ≠ 8 ∧
      fetch s = .error .fetchNext) ∨
    (∃ w, s.code[(readReg .rn s).toNat]? = some w ∧ readReg .rn s = 255 ∧ targetBits w = 8 ∧
      fetch s = .ok (w, writeReg .rn overflowedRn s)) ∨
    (∃ w, s.code[(readReg .rn s).toNat]? = some w ∧ readReg .rn s ≠ 255 ∧
      fetch s = .ok (w, writeReg .rn (readReg .rn s + 1) s)) := by
  unfold fetch
  cases hc : s.code[(readReg .rn s).toNat]? with
  | none => exact .inl ⟨by simpa using hc, rfl⟩
  | some w =>
    right
    by_cases h : readReg .rn s = 255
    · by_cases ht : targetBits w = 8
      · exact .inr (.inl ⟨w, rfl, h, ht, by simp only [if_pos h, if_pos ht]⟩)
      · exact .inl ⟨w, rfl, h, ht, by simp only [if_pos h, if_neg ht]⟩
    · exact .inr (.inr ⟨w, rfl, h, by simp only [if_neg h]⟩)

/-- Everything retire can do to a next state (R106). -/
theorem retire_next {w : Word} {out : Result} {t : State} (h : retire w out = .next t) :
    ∃ u, out = .next u ∧ ((u.status = .running ∧ t = { u with trace := some w }) ∨ (u.status ≠ .running ∧ t = u)) := by
  cases out with
  | next u =>
    simp only [retire, Host.Outcome.next.injEq] at h
    split at h
    · next hr => exact ⟨u, rfl, .inl ⟨hr, h.symm⟩⟩
    · next hr => exact ⟨u, rfl, .inr ⟨hr, h.symm⟩⟩
  | fault _ => simp [retire] at h
  | refused _ => simp [retire] at h

/-- Everything a step can do from a running state (R107). -/
theorem step_cases {s t : State} (hrun : s.status = .running) (h : step s = .next t) :
    (∃ k, (k = .fetchInvalid ∨ k = .fetchNext) ∧ fetch s = .error k ∧ t = raise k s) ∨
    ∃ w x u, s.code[(readReg .rn s).toNat]? = some w ∧ fetch s = .ok (w, writeReg .rn x s) ∧
      exec (decodeWord w) (writeReg .rn x s) = .next u ∧
      ((u.status = .running ∧ t = { u with trace := some w }) ∨ (u.status ≠ .running ∧ t = u)) := by
  unfold step at h
  rw [if_pos hrun] at h
  rcases fetch_cases s with ⟨_, e⟩ | ⟨w, _, _, _, e⟩ | ⟨w, hw, _, _, e⟩ | ⟨w, hw, _, e⟩ <;>
    simp only [e, takeFault] at h
  · exact .inl ⟨_, .inl rfl, e, (Host.Outcome.next.inj h).symm⟩
  · exact .inl ⟨_, .inr rfl, e, (Host.Outcome.next.inj h).symm⟩
  · obtain ⟨u, hu, hc⟩ := retire_next h
    exact .inr ⟨w, _, u, hw, e, hu, hc⟩
  · obtain ⟨u, hu, hc⟩ := retire_next h
    exact .inr ⟨w, _, u, hw, e, hu, hc⟩

/-- A placed word is where the next fetch looks for it. -/
theorem placeWord_getElem? (code : List Word) (i : Nat) (w : Word) : (placeWord code i w)[i]? = some w := by
  induction i generalizing code with
  | zero => cases code <;> rfl
  | succ i ih => cases code <;> simpa [placeWord] using ih _

end Sys2Proof.Machine
end

