-- ==== Sys2Proof/Laws/Exec.lean ====
section
/-! SUPPORT. One inversion lemma per shape of instruction: everything its meaning can answer. Later proofs split on
these instead of unfolding the meanings. -/

namespace Sys2Proof.Machine

/-- What a single-element instruction can answer: a fault of its opcode with nothing written, one register written
that it names as its destination, or (`cns`) no change. -/
inductive SingleAnswer (i : Instr) (s : State) (out : Result) : Prop
  | raised (k : FaultKind) (hk : k ∈ executeKinds i.opcode) (h : out = .next (raise k s))
  | wrote (r : Reg) (x : Byte) (hr : namesDestination i r) (h : out = .next (writeReg r x s))
  | same (h : out = .next s)

theorem withOperands_answer {i : Instr} {s : State} {t : Nibble} {v : Byte} {body : Reg → Reg → Result}
    (h1 : .invalidTarget ∈ executeKinds i.opcode) (h2 : valueRegKind ∈ executeKinds i.opcode)
    (h3 : ∀ rt rv, t.toNat = rt.id → v.toNat = rv.id → SingleAnswer i s (body rt rv)) :
    SingleAnswer i s (withOperands t v s body) := by
  rcases withOperands_cases t v s body with ⟨_, e⟩ | ⟨_, _, e⟩ | ⟨rt, rv, ht, hv, e⟩
  · exact .raised _ h1 e
  · exact .raised _ h2 e
  · rw [e]; exact h3 rt rv ht hv

theorem storeChecked_answer {i : Instr} {s : State} {rt : Reg} (hk : .registerOverflow ∈ executeKinds i.opcode)
    (hr : namesDestination i rt) (result : Option Nat) : SingleAnswer i s (storeChecked rt result s) := by
  unfold storeChecked
  split
  · exact .raised _ hk rfl
  · split
    · exact .raised _ hk rfl
    · exact .wrote _ _ hr rfl

theorem checkedOp_answer {i : Instr} {s : State} {t : Nibble} {v : Byte} (op : Nat → Nat → Option Nat)
    (hi : executeKinds i.opcode = [.invalidTarget, valueRegKind, .registerOverflow])
    (hr : ∀ rt : Reg, t.toNat = rt.id → namesDestination i rt) : SingleAnswer i s (checkedOp op t v s) :=
  withOperands_answer (by simp [hi]) (by simp [hi]) fun _ _ ht _ => storeChecked_answer (by simp [hi]) (hr _ ht) _

theorem combine_answer {i : Instr} {s : State} {t : Nibble} {v : Byte} (op : Byte → Byte → Byte)
    (hi : executeKinds i.opcode = [.invalidTarget, valueRegKind])
    (hr : ∀ rt : Reg, t.toNat = rt.id → namesDestination i rt) : SingleAnswer i s (combine op t v s) :=
  withOperands_answer (by simp [hi]) (by simp [hi]) fun _ _ ht _ => .wrote _ _ (hr _ ht) rfl

/-- Everything a single-element instruction can do. -/
theorem exec_single (i : Instr) (s : State) (hi : singleElement i) : SingleAnswer i s (exec i s) := by
  cases i with
  | int t v => simp [singleElement, Instr.opcode] at hi
  | psh t v => simp [singleElement, Instr.opcode] at hi
  | pop t v => simp [singleElement, Instr.opcode] at hi
  | set t m =>
    rcases withTarget_cases t s (fun r => .next (writeReg r m s)) with ⟨_, e⟩ | ⟨r, ht, e⟩
    · exact .raised .invalidTarget (by simp [executeKinds, Instr.opcode]) e
    · exact .wrote r m ht.symm e
  | add t v => exact checkedOp_answer exactAdd rfl fun _ h => h.symm
  | sub t v => exact checkedOp_answer exactSub rfl fun _ h => h.symm
  | mul t v => exact checkedOp_answer exactMul rfl fun _ h => h.symm
  | div t v => exact checkedOp_answer exactDiv rfl fun _ h => h.symm
  | chk t v =>
    exact withOperands_answer (by simp [executeKinds, Instr.opcode]) (by simp [executeKinds, Instr.opcode])
      fun _ _ _ _ => .wrote _ _ rfl rfl
  | cns t v =>
    refine withOperands_answer (by simp [executeKinds, Instr.opcode]) (by simp [executeKinds, Instr.opcode])
      fun rt rv ht _ => ?_
    split
    · exact .wrote _ _ ht.symm rfl
    · exact .same rfl
  | lpt t v =>
    refine withOperands_answer (by simp [executeKinds, Instr.opcode]) (by simp [executeKinds, Instr.opcode])
      fun rt rv ht _ => ?_
    rcases stackRead_cases (readReg rv s) s with ⟨_, e⟩ | ⟨_, e⟩ <;> simp only [e]
    · exact .wrote _ _ ht.symm rfl
    · exact .raised _ (by simp [executeKinds, Instr.opcode]) rfl
  | lsh t v => exact combine_answer (fun a b => shiftLeftBy a (shiftAmount b)) rfl fun _ h => h.symm
  | rsh t v => exact combine_answer (fun a b => shiftRightBy a (shiftAmount b)) rfl fun _ h => h.symm
  | and t v => exact combine_answer _ rfl fun _ h => h.symm
  | bor t v => exact combine_answer _ rfl fun _ h => h.symm
  | xor t v => exact combine_answer _ rfl fun _ h => h.symm

/-- What a sequence of pushes or pops over a range ends a meaning with. -/
theorem finishRange_cases (range : List Reg) (res : ElementsResult) :
    (∃ u, res = .done u ∧ finishRange range res = .next u) ∨
    ∃ k n u, res = .raised k n u ∧ finishRange range res = .next (raisePartial k range n u) := by
  cases res with
  | done u => exact .inl ⟨u, rfl, rfl⟩
  | raised k n u => exact .inr ⟨k, n, u, rfl, rfl⟩

/-- Everything `psh` can do (R141). -/
theorem psh_cases (t : Nibble) (v : Byte) (s : State) :
    (∃ k, (k = .invalidTarget ∨ k = valueRegKind) ∧ exec (.psh t v) s = .next (raise k s)) ∨
    ∃ rt rv, t.toNat = rt.id ∧ v.toNat = rv.id ∧
      ((∃ u, pushEach readReg (regRange rt rv) 0 s = .done u ∧ exec (.psh t v) s = .next u) ∨
       ∃ n u, pushEach readReg (regRange rt rv) 0 s = .raised .stackOverflow n u ∧
         exec (.psh t v) s = .next (raisePartial .stackOverflow (regRange rt rv) n u)) := by
  rcases withOperands_cases t v s (fun a b => finishRange (regRange a b) (pushEach readReg (regRange a b) 0 s)) with
    ⟨_, e⟩ | ⟨_, _, e⟩ | ⟨rt, rv, ht, hv, e⟩
  · exact .inl ⟨_, .inl rfl, e⟩
  · exact .inl ⟨_, .inr rfl, e⟩
  · refine .inr ⟨rt, rv, ht, hv, ?_⟩
    have e' : exec (.psh t v) s = _ := e
    rw [e']
    rcases finishRange_cases (regRange rt rv) (pushEach readReg (regRange rt rv) 0 s) with
      ⟨u, h1, h2⟩ | ⟨k, n, u, h1, h2⟩
    · exact .inl ⟨u, h1, h2⟩
    · cases pushEach_kind _ _ _ _ h1
      exact .inr ⟨n, u, h1, h2⟩

/-- Everything `pop` can do (R142). -/
theorem pop_cases (t : Nibble) (v : Byte) (s : State) :
    (∃ k, (k = .invalidTarget ∨ k = valueRegKind) ∧ exec (.pop t v) s = .next (raise k s)) ∨
    ∃ rt rv, t.toNat = rt.id ∧ v.toNat = rv.id ∧
      ((∃ u, popEach (regRange rt rv).reverse 0 s = .done u ∧ exec (.pop t v) s = .next u) ∨
       ∃ n u, popEach (regRange rt rv).reverse 0 s = .raised popUnderflowKind n u ∧
         exec (.pop t v) s = .next (raisePartial popUnderflowKind (regRange rt rv) n u)) := by
  rcases withOperands_cases t v s
      (fun a b => finishRange (regRange a b) (popEach (regRange a b).reverse 0 s)) with
    ⟨_, e⟩ | ⟨_, _, e⟩ | ⟨rt, rv, ht, hv, e⟩
  · exact .inl ⟨_, .inl rfl, e⟩
  · exact .inl ⟨_, .inr rfl, e⟩
  · refine .inr ⟨rt, rv, ht, hv, ?_⟩
    have e' : exec (.pop t v) s = _ := e
    rw [e']
    rcases finishRange_cases (regRange rt rv) (popEach (regRange rt rv).reverse 0 s) with
      ⟨u, h1, h2⟩ | ⟨k, n, u, h1, h2⟩
    · exact .inl ⟨u, h1, h2⟩
    · cases popEach_kind _ _ _ h1
      exact .inr ⟨n, u, h1, h2⟩

/-- The bytes a READLINE pushes: at most R0 of them, in line order (R123). -/
def readCount (bytes : List Byte) (s : State) : Nat := min (readReg .r0 s).toNat bytes.length

/-- What `int` can answer (R120 to R124). -/
inductive IntAnswer (s : State) (out : Result) : Prop
  | halt (h : readReg .rs s = 0) (e : out = .next (raise .halt s))
  | printed (h : readReg .rs s = Config.intCodes.printline) (hr : printReply s = .accepted)
      (e : out = .next (acceptOutput (s.stack.drop (readReg .r0 s).toNat) (takeReply s)))
  | printError (h : readReg .rs s = Config.intCodes.printline) (hr : printReply s = .ioError)
      (e : out = .next (raise .interrupt (takeReply s)))
  | silent (h : readReg .rs s = Config.intCodes.readline) (hr : lineAnswer s = .silent) (e : out = .fault .hostSilent)
  | readError (h : readReg .rs s = Config.intCodes.readline) (hr : lineAnswer s = .ioError)
      (e : out = .next (raise .interrupt (takeLine s)))
  | read (h : readReg .rs s = Config.intCodes.readline) (bytes : List Byte) (hr : lineAnswer s = .line bytes)
      (u : State) (hp : pushEach (fun b _ => b) (bytes.take (readCount bytes s)) 0 (takeLine s) = .done u)
      (e : out = .next (writeReg .r0 (BitVec.ofNat 8 (readCount bytes s)) u))
  | readFull (h : readReg .rs s = Config.intCodes.readline) (bytes : List Byte) (hr : lineAnswer s = .line bytes)
      (n : Nat) (u : State)
      (hp : pushEach (fun b _ => b) (bytes.take (readCount bytes s)) 0 (takeLine s) = .raised .stackOverflow n u)
      (e : out = .next (raisePartial .stackOverflow [.r0] n u))
  | unimplemented (h0 : readReg .rs s ≠ 0) (h1 : readReg .rs s ≠ Config.intCodes.printline)
      (h2 : readReg .rs s ≠ Config.intCodes.readline) (e : out = .next (raise .unimplemented s))

/-- Everything `int` can do. -/
theorem int_cases (t : Nibble) (v : Byte) (s : State) : IntAnswer s (exec (.int t v) s) := by
  show IntAnswer s (execInt t v s)
  unfold execInt
  split
  · next h => exact .halt h rfl
  · next h0 =>
    split
    · next h =>
      unfold printLine
      cases hr : printReply s with
      | accepted => exact .printed h hr rfl
      | ioError => exact .printError h hr rfl
    · next h1 =>
      split
      · next h =>
        unfold readLine
        cases hr : lineAnswer s with
        | silent => exact .silent h hr rfl
        | ioError => exact .readError h hr rfl
        | line bytes =>
          simp only
          change IntAnswer s
            (match pushEach (fun b _ => b) (bytes.take (readCount bytes s)) 0 (takeLine s) with
              | .done s' => .next (writeReg .r0 (BitVec.ofNat 8 (readCount bytes s)) s')
              | .raised k n s' => .next (raisePartial k [.r0] n s'))
          cases hp : pushEach (fun b _ => b) (bytes.take (readCount bytes s)) 0 (takeLine s) with
          | done u => exact .read h bytes hr u hp rfl
          | raised k n u =>
            cases pushEach_kind _ _ _ _ hp
            exact .readFull h bytes hr n u hp rfl
      · next h2 => exact .unimplemented h0 h1 h2 rfl

/-! ### What every instruction keeps -/

/-- The bytecode, the status, the fault record and the trace word are those of `s`. -/
def runKept (s u : State) : Prop :=
  u.code = s.code ∧ u.status = s.status ∧ u.fault = s.fault ∧ u.trace = s.trace

theorem runKept_refl (s : State) : runKept s s := ⟨rfl, rfl, rfl, rfl⟩

theorem pushEach_runKept {α : Type} (value : α → State → Byte) (l : List α) (n : Nat) (s : State) :
    resultHolds (runKept s) (pushEach value l n s) :=
  pushEach_keeps value (fun _ _ h _ => h) l n s (runKept_refl s)

theorem popEach_runKept (l : List Reg) (n : Nat) (s : State) : resultHolds (runKept s) (popEach l n s) :=
  popEach_keeps (fun _ _ _ _ h _ _ => h) l n s (runKept_refl s)

/-- A next state of any instruction: either the run goes on as it was, or a fault of the opcode's own kinds was raised
from a state whose run was as it was (a fault before any element, and every Halt, counts none done). -/
theorem exec_next_cases {i : Instr} {s u : State} (h : exec i s = .next u) :
    runKept s u ∨ ∃ k range n v, k ∈ executeKinds i.opcode ∧ (n = 0 ∨ k ≠ .halt) ∧
      u = raisePartial k range n v ∧ runKept s v := by
  by_cases hi : singleElement i
  · rcases exec_single i s hi with ⟨k, hk, e⟩ | ⟨r, x, _, e⟩ | e <;> cases e.symm.trans h
    · exact .inr ⟨k, [], 0, s, hk, .inl rfl, rfl, runKept_refl s⟩
    · exact .inl (runKept_refl s)
    · exact .inl (runKept_refl s)
  · cases i <;> simp [singleElement, Instr.opcode] at hi
    case int t v =>
      have hp : ∀ bytes : List Byte, resultHolds (runKept s)
          (pushEach (fun b _ => b) (bytes.take (readCount bytes s)) 0 (takeLine s)) := fun bytes =>
        pushEach_keeps _ (fun _ _ h _ => h) _ _ _ (runKept_refl s)
      rcases int_cases t v s with ⟨_, e⟩ | ⟨_, _, e⟩ | ⟨_, _, e⟩ | ⟨_, _, e⟩ | ⟨_, _, e⟩ | ⟨_, b, _, w, hw, e⟩ |
        ⟨_, b, _, n, w, hw, e⟩ | ⟨_, _, _, e⟩ <;> cases e.symm.trans h
      · exact .inr ⟨_, [], 0, _, by simp [Instr.opcode, executeKinds], .inl rfl, rfl, runKept_refl s⟩
      · exact .inl (runKept_refl s)
      · exact .inr ⟨_, [], 0, _, by simp [Instr.opcode, executeKinds], .inl rfl, rfl, runKept_refl s⟩
      · exact .inr ⟨_, [], 0, _, by simp [Instr.opcode, executeKinds], .inl rfl, rfl,
          runKept_refl s⟩
      · have := hp b; rw [hw] at this; exact .inl this
      · have := hp b; rw [hw] at this
        exact .inr ⟨_, _, _, _, by simp [Instr.opcode, executeKinds], .inr (by decide), rfl, this⟩
      · exact .inr ⟨_, [], 0, _, by simp [Instr.opcode, executeKinds], .inl rfl, rfl, runKept_refl s⟩
    case psh t v =>
      rcases psh_cases t v s with ⟨k, hk, e⟩ | ⟨rt, rv, _, _, ⟨w, hw, e⟩ | ⟨n, w, hw, e⟩⟩ <;> cases e.symm.trans h
      · exact .inr ⟨k, [], 0, s, by rcases hk with rfl | rfl <;> simp [Instr.opcode, executeKinds], .inl rfl, rfl,
          runKept_refl s⟩
      · have := pushEach_runKept readReg (regRange rt rv) 0 s; rw [hw] at this; exact .inl this
      · have := pushEach_runKept readReg (regRange rt rv) 0 s; rw [hw] at this
        exact .inr ⟨_, _, _, _, by simp [Instr.opcode, executeKinds], .inr (by decide), rfl, this⟩
    case pop t v =>
      rcases pop_cases t v s with ⟨k, hk, e⟩ | ⟨rt, rv, _, _, ⟨w, hw, e⟩ | ⟨n, w, hw, e⟩⟩ <;> cases e.symm.trans h
      · exact .inr ⟨k, [], 0, s, by rcases hk with rfl | rfl <;> simp [Instr.opcode, executeKinds], .inl rfl, rfl,
          runKept_refl s⟩
      · have := popEach_runKept (regRange rt rv).reverse 0 s; rw [hw] at this; exact .inl this
      · have := popEach_runKept (regRange rt rv).reverse 0 s; rw [hw] at this
        exact .inr ⟨_, _, _, _, by simp [Instr.opcode, executeKinds], .inr popUnderflowKind_ne_halt, rfl, this⟩

/-- Every instruction has a next state, but for a READLINE the host never answers. -/
theorem exec_moves (i : Instr) (s : State) :
    (∃ u, exec i s = .next u) ∨
    (i.opcode = .int ∧ readReg .rs s = Config.intCodes.readline ∧ lineAnswer s = .silent ∧
      exec i s = .fault .hostSilent) := by
  by_cases hi : singleElement i
  · rcases exec_single i s hi with ⟨k, hk, e⟩ | ⟨r, x, _, e⟩ | e <;> exact .inl ⟨_, e⟩
  · cases i <;> simp [singleElement, Instr.opcode] at hi
    case int t v =>
      rcases int_cases t v s with ⟨_, e⟩ | ⟨_, _, e⟩ | ⟨_, _, e⟩ | ⟨h1, h2, e⟩ | ⟨_, _, e⟩ | ⟨_, b, _, w, hw, e⟩ |
        ⟨_, b, _, n, w, hw, e⟩ | ⟨_, _, _, e⟩
      case silent => exact .inr ⟨rfl, h1, h2, e⟩
      all_goals exact .inl ⟨_, e⟩
    case psh t v =>
      rcases psh_cases t v s with ⟨k, hk, e⟩ | ⟨rt, rv, _, _, ⟨w, hw, e⟩ | ⟨n, w, hw, e⟩⟩ <;> exact .inl ⟨_, e⟩
    case pop t v =>
      rcases pop_cases t v s with ⟨k, hk, e⟩ | ⟨rt, rv, _, _, ⟨w, hw, e⟩ | ⟨n, w, hw, e⟩⟩ <;> exact .inl ⟨_, e⟩

end Sys2Proof.Machine
end

