-- ==== Sys2Proof/Laws/Elements.lean ====
section
/-! SUPPORT. What a run of pushes and a run of pops have done after `k` elements, in closed form. -/

namespace Sys2Proof.Machine

theorem writeReg_twice (r : Reg) (a b : Byte) (s : State) : writeReg r a (writeReg r b s) = writeReg r a s := by
  simp [writeReg]

theorem writeReg_readReg (r : Reg) (s : State) : writeReg r (readReg r s) s = s := by
  simp [writeReg, readReg]

theorem toNat_ne_zero {b : Byte} (h : b ≠ 0) : b.toNat ≠ 0 :=
  fun e => h (BitVec.eq_of_toNat_eq (by simpa using e))

/-! ### Pushes -/

/-- The state after pushing the bytes listed. -/
def pushed (bs : List Byte) (s : State) : State :=
  writeReg .rd (readReg .rd s + BitVec.ofNat 8 bs.length) (setStack (s.stack ++ bs) s)

theorem pushed_nil (s : State) : pushed [] s = s := by
  simp [pushed, writeReg_readReg]

@[simp] theorem pushed_stack (bs : List Byte) (s : State) : (pushed bs s).stack = s.stack ++ bs := rfl

@[simp] theorem readReg_pushed_rd (bs : List Byte) (s : State) :
    readReg .rd (pushed bs s) = readReg .rd s + BitVec.ofNat 8 bs.length := by
  simp [pushed]

theorem readReg_pushed_ne {r : Reg} (h : r ≠ .rd) (bs : List Byte) (s : State) :
    readReg r (pushed bs s) = readReg r s := readReg_writeReg_ne h _ _

theorem pushed_cons (b : Byte) (bs : List Byte) (s : State) : pushed (b :: bs) s = pushed bs (pushed [b] s) := by
  have e : BitVec.ofNat 8 (bs.length + 1) = 1#8 + BitVec.ofNat 8 bs.length := by
    rw [Nat.add_comm, BitVec.ofNat_add]
  simp [pushed, writeReg_twice, e, BitVec.add_assoc]

theorem roomFor_succ (n : Nat) (v : Byte) (s : State) :
    roomFor (n + 1) s ↔ roomFor 1 s ∧ roomFor n (pushed [v] s) := by
  have hlt := (readReg .rd s).isLt
  unfold roomFor
  simp only [readReg_pushed_rd, pushed_stack, List.length_append, List.length_singleton]
  constructor
  · rintro ⟨h1, h2⟩
    refine ⟨⟨by omega, fun c hc j hj => h2 c hc j (by omega)⟩, ?_, fun c hc j hj => ?_⟩
    · rw [BitVec.toNat_add, BitVec.toNat_ofNat]; omega
    · have := h2 c hc (j + 1) (by omega); omega
  · rintro ⟨⟨h1, h2⟩, h3, h4⟩
    rw [BitVec.toNat_add, BitVec.toNat_ofNat] at h3
    refine ⟨by omega, fun c hc j hj => ?_⟩
    cases j with
    | zero => exact h2 c hc 0 (by omega)
    | succ j => have := h4 c hc j (by omega); omega

theorem roomFor_zero (s : State) : roomFor 0 s :=
  ⟨by have := (readReg .rd s).isLt; omega, fun _ _ _ h => absurd h (by omega)⟩

/-- The values a list of sources pushes, each computed when its element is pushed. -/
def pushValues {α : Type} (value : α → State → Byte) : List α → State → List Byte
  | [], _ => []
  | a :: rest, s => value a s :: pushValues value rest (pushed [value a s] s)

theorem pushValues_length {α : Type} (value : α → State → Byte) :
    ∀ (l : List α) (s : State), (pushValues value l s).length = l.length
  | [], _ => rfl
  | a :: rest, s => by simp [pushValues, pushValues_length value rest]

theorem pushEach_cons_ok {α : Type} (value : α → State → Byte) (a : α) (rest : List α) (n : Nat) {s : State}
    (h : roomFor 1 s) : pushEach value (a :: rest) n s = pushEach value rest (n + 1) (pushed [value a s] s) := by
  rcases pushChecked_cases (value a s) s with ⟨_, e⟩ | ⟨h', _⟩
  · simp only [pushEach, e]; rfl
  · exact absurd h h'

/-- With room for all, every element is pushed. -/
theorem pushEach_done {α : Type} (value : α → State → Byte) :
    ∀ (l : List α) (n : Nat) (s : State), roomFor l.length s →
      pushEach value l n s = .done (pushed (pushValues value l s) s)
  | [], n, s, _ => by simp [pushEach, pushValues, pushed_nil]
  | a :: rest, n, s, h => by
    obtain ⟨h1, h2⟩ := (roomFor_succ rest.length (value a s) s).mp h
    rw [pushEach_cons_ok value a rest n h1, pushEach_done value rest _ _ h2, pushValues,
      pushed_cons (value a s) (pushValues value rest _)]

/-- With room for exactly `k`, the element after them raises StackOverflow. -/
theorem pushEach_raised {α : Type} (value : α → State → Byte) :
    ∀ (l : List α) (n k : Nat) (s : State), k < l.length → roomFor k s → ¬ roomFor (k + 1) s →
      pushEach value l n s = .raised .stackOverflow (n + k) (pushed ((pushValues value l s).take k) s)
  | [], _, _, _, h, _, _ => absurd h (by simp)
  | a :: rest, n, 0, s, _, _, h => by
    rcases pushChecked_cases (value a s) s with ⟨h', _⟩ | ⟨_, e⟩
    · exact absurd h' h
    · simp [pushEach, e, pushed_nil]
  | a :: rest, n, k + 1, s, hk, h1, h2 => by
    obtain ⟨h3, h4⟩ := (roomFor_succ k (value a s) s).mp h1
    have h5 : ¬ roomFor (k + 1) (pushed [value a s] s) := fun h => h2 ((roomFor_succ _ _ _).mpr ⟨h3, h⟩)
    rw [pushEach_cons_ok value a rest n h3,
      pushEach_raised value rest (n + 1) k _ (by simpa using hk) h4 h5, pushValues, List.take_succ_cons,
      pushed_cons (value a s) (List.take k _),
      Nat.add_right_comm, Nat.add_assoc]

theorem pushValues_bytes : ∀ (l : List Byte) (s : State), pushValues (fun b _ => b) l s = l
  | [], _ => rfl
  | b :: rest, s => by simp [pushValues, pushValues_bytes rest]

/-- The values of a register range: RD as the earlier pushes have advanced it (R141, R255). -/
theorem pushValues_regs : ∀ (l : List Reg) (s : State), pushValues readReg l s = pushedValues l s
  | [], _ => rfl
  | r :: rest, s => by
    have hb : ∀ j : Nat, 1#8 + BitVec.ofNat 8 j = BitVec.ofNat 8 (j + 1) := fun j => by
      rw [Nat.add_comm j 1, BitVec.ofNat_add]
    simp only [pushValues, pushValues_regs rest, pushedValues, List.mapIdx_cons]
    congr 1
    · by_cases h : r = .rd
      · subst h; simp
      · simp [h]
    · congr 1
      funext j q
      by_cases h : q = .rd
      · simp [h, BitVec.add_assoc, hb]
      · simp [h, readReg_pushed_ne h]

/-! ### Pops -/

/-- The state after the element `v` is popped off `st` into `r`. -/
def popInto (r : Reg) (v : Byte) (st : List Byte) (s : State) : State :=
  writeReg r v (writeReg .rd (readReg .rd s - 1) (setStack st s))

@[simp] theorem popInto_stack (r : Reg) (v : Byte) (st : List Byte) (s : State) : (popInto r v st s).stack = st := rfl

theorem poppedAt_zero {s : State} {st : List Byte} {v : Byte} (h : s.stack = st ++ [v]) : poppedAt s 0 = v := by
  simp [poppedAt, h]

theorem poppedAt_succ {s : State} {st : List Byte} {v : Byte} (h : s.stack = st ++ [v]) (r : Reg) {j : Nat}
    (hj : j < st.length) : poppedAt s (j + 1) = poppedAt (popInto r v st s) j := by
  have e : st.length - (j + 1) = st.length - 1 - j := by omega
  simp only [poppedAt, h, popInto_stack, List.length_append, List.length_singleton, Nat.add_sub_cancel, e]
  rw [List.getD_append _ _ _ _ (by omega)]

theorem readReg_popInto_rd {r : Reg} (hr : r ≠ .rd) {s : State} (h0 : readReg .rd s ≠ 0) (v : Byte)
    (st : List Byte) : (readReg .rd (popInto r v st s)).toNat + 1 = (readReg .rd s).toNat := by
  have := toNat_ne_zero h0
  have hlt := (readReg .rd s).isLt
  rw [popInto, readReg_writeReg_ne (Ne.symm hr), readReg_writeReg_same, BitVec.toNat_sub]
  simp; omega

/-- RD's course after the first pop is the course of the remaining pops. -/
theorem depthBeforePop_succ {s : State} {st : List Byte} {v : Byte} (h : s.stack = st ++ [v])
    (h0 : readReg .rd s ≠ 0) {r : Reg} {rest : List Reg} (hnd : (r :: rest).Nodup) {j : Nat} (hj : j ≤ st.length) :
    depthBeforePop (r :: rest) s (j + 1) = depthBeforePop rest (popInto r v st s) j := by
  unfold depthBeforePop
  rw [List.take_succ_cons]
  by_cases hr : r = .rd
  · subst hr
    have hno : (rest.take j).idxOf? .rd = none := by
      rw [List.idxOf?_eq_none_iff]
      exact fun hm => (List.nodup_cons.mp hnd).1 (List.mem_of_mem_take hm)
    rw [hno]
    simp [List.idxOf?_cons, poppedAt_zero h, popInto]
  · have hc : (r :: rest.take j).idxOf? .rd = ((rest.take j).idxOf? .rd).map (· + 1) := by
      simp [List.idxOf?_cons, hr]
    rw [hc]
    cases hi : (rest.take j).idxOf? .rd with
    | none =>
      have := readReg_popInto_rd hr h0 v st
      simp only [Option.map_none]; omega
    | some p =>
      have hp : p < j := by
        have := List.of_findIdx?_eq_some (p := (· == Reg.rd)) (xs := rest.take j) (i := p) hi
        by_contra hge
        have hlen : (rest.take j).length ≤ p := by simp; omega
        simp [List.getElem?_eq_none hlen] at this
      simp only [Option.map_some, poppedAt_succ h r (show p < st.length by omega)]
      omega

theorem depthBeforePop_zero (regs : List Reg) (s : State) : depthBeforePop regs s 0 = (readReg .rd s).toNat := by
  simp [depthBeforePop]

/-- What `k` successful pops leave. -/
structure AfterPops (regs : List Reg) (k : Nat) (s u : State) : Prop where
  stack : u.stack = s.stack.take (s.stack.length - k)
  depth : (readReg .rd u).toNat = depthBeforePop regs s k
  values : ∀ j r, (regs.take k)[j]? = some r → r ≠ .rd → readReg r u = poppedAt s j
  frame : regsSameExcept (.rd :: regs.take k) s u
  rest : restSame s u

theorem afterPops_zero (regs : List Reg) (s : State) : AfterPops regs 0 s s where
  stack := by simp
  depth := (depthBeforePop_zero regs s).symm
  values := by simp
  frame := ⟨fun _ _ => rfl, rfl⟩
  rest := ⟨⟨rfl, rfl, rfl, rfl, rfl⟩, ⟨rfl, rfl, rfl⟩, rfl, rfl⟩

/-- `k` successful pops go through, and leave what R142 says. -/
theorem popEach_after : ∀ (regs : List Reg) (n k : Nat) (s : State), regs.Nodup → k ≤ regs.length →
    popsSucceed regs k s → ∃ u, popEach regs n s = popEach (regs.drop k) (n + k) u ∧ AfterPops regs k s u
  | regs, n, 0, s, _, _, _ => ⟨s, rfl, afterPops_zero regs s⟩
  | [], _, _ + 1, _, _, h, _ => absurd h (by simp)
  | r :: rest, n, k + 1, s, hnd, hk, hs => by
    have h00 := hs 0 (by omega)
    rw [depthBeforePop_zero] at h00
    have h0 : readReg .rd s ≠ 0 := fun e => h00.2 (by rw [e]; rfl)
    rcases popChecked_cases s with ⟨st, v, hst, _, e⟩ | ⟨h | h, _⟩
    · have hlen : s.stack.length = st.length + 1 := by simp [hst]
      have hrest : popsSucceed rest k (popInto r v st s) := by
        intro j hj
        obtain ⟨h1, h2⟩ := hs (j + 1) (by omega)
        rw [depthBeforePop_succ hst h0 hnd (by omega)] at h2
        exact ⟨by simp; omega, h2⟩
      have hkl : k ≤ st.length := by
        rcases Nat.eq_zero_or_pos k with rfl | hpos
        · omega
        · have := (hs k (by omega)).1; omega
      obtain ⟨u, hu, ha⟩ := popEach_after rest (n + 1) k (popInto r v st s) (List.nodup_cons.mp hnd).2
        (by simpa using hk) hrest
      refine ⟨u, ?_, ?_⟩
      · have e1 : popEach (r :: rest) n s = popEach rest (n + 1) (popInto r v st s) := by
          rw [popEach, e]; rfl
        rw [e1, hu, List.drop_succ_cons, Nat.add_right_comm, Nat.add_assoc]
      · have hnot : r ∉ rest.take k := fun hm => (List.nodup_cons.mp hnd).1 (List.mem_of_mem_take hm)
        refine ⟨?_, ?_, ?_, ?_, ?_⟩
        · rw [ha.stack, popInto_stack, hlen, hst, List.take_append_of_le_length (by omega)]
          congr 1
          omega
        · rw [ha.depth, depthBeforePop_succ hst h0 hnd hkl]
        · intro j q hq hqr
          cases j with
          | zero =>
            obtain rfl : r = q := by simpa using hq
            rw [ha.frame.1 r (by simp [hqr, hnot]), popInto, readReg_writeReg_same, poppedAt_zero hst]
          | succ j =>
            have hq' : (rest.take k)[j]? = some q := by simpa using hq
            have hj : j < k := by
              by_contra hge
              rw [List.getElem?_eq_none (by simp; omega)] at hq'
              cases hq'
            rw [ha.values j q hq' hqr, poppedAt_succ hst r (by omega)]
        · refine ⟨fun q hq => ?_, ?_⟩
          · simp only [List.take_succ_cons, List.mem_cons, not_or] at hq
            rw [ha.frame.1 q (by simp [hq.1, hq.2.2]), popInto, readReg_writeReg_ne hq.2.1,
              readReg_writeReg_ne hq.1]
            rfl
          · rw [ha.frame.2]; simp [popInto]
        · exact ha.rest
    · rw [h] at h00; exact absurd h00.1 (by simp)
    · exact absurd h h0

end Sys2Proof.Machine
end

