-- ==== Sys2Proof/Laws/PerInstr.lean ====
section
/-! SUPPORT. A statement for every instruction, one lemma per constructor: the word of an instruction holds its
opcode, target and value in the fields of R65. -/

namespace Sys2Proof.Laws.Fields

/-- The word's three fields are the instruction's (R65, R66). -/
def Statement (i : Instr) : Prop :=
  opcodeBits (encode i) = i.opcode.bits ∧ targetBits (encode i) = i.target ∧ valueBits (encode i) = i.value

/-- Fields joined by R75's formula are found again at their bit positions. -/
theorem joined (o : Opcode) (t : Nibble) (v : Byte) :
    opcodeBits (encodeFields o t v) = o.bits ∧ targetBits (encodeFields o t v) = t ∧
      valueBits (encodeFields o t v) = v := by
  refine ⟨?_, ?_, ?_⟩ <;> ext i hi <;> interval_cases i <;>
    simp [encodeFields, opcodeBits, targetBits, valueBits, BitVec.getLsbD_eq_getElem]

theorem int (t : Nibble) (v : Byte) : Statement (.int t v) := joined .int t v
theorem set (t : Nibble) (v : Byte) : Statement (.set t v) := joined .set t v
theorem psh (t : Nibble) (v : Byte) : Statement (.psh t v) := joined .psh t v
theorem pop (t : Nibble) (v : Byte) : Statement (.pop t v) := joined .pop t v
theorem add (t : Nibble) (v : Byte) : Statement (.add t v) := joined .add t v
theorem sub (t : Nibble) (v : Byte) : Statement (.sub t v) := joined .sub t v
theorem mul (t : Nibble) (v : Byte) : Statement (.mul t v) := joined .mul t v
theorem div (t : Nibble) (v : Byte) : Statement (.div t v) := joined .div t v
theorem chk (t : Nibble) (v : Byte) : Statement (.chk t v) := joined .chk t v
theorem cns (t : Nibble) (v : Byte) : Statement (.cns t v) := joined .cns t v
theorem lpt (t : Nibble) (v : Byte) : Statement (.lpt t v) := joined .lpt t v
theorem lsh (t : Nibble) (v : Byte) : Statement (.lsh t v) := joined .lsh t v
theorem rsh (t : Nibble) (v : Byte) : Statement (.rsh t v) := joined .rsh t v
theorem and (t : Nibble) (v : Byte) : Statement (.and t v) := joined .and t v
theorem bor (t : Nibble) (v : Byte) : Statement (.bor t v) := joined .bor t v
theorem xor (t : Nibble) (v : Byte) : Statement (.xor t v) := joined .xor t v

end Sys2Proof.Laws.Fields
end

