-- ==== Sys2Proof/Tests/Slice0.lean ====
section
/-! SUPPORT. The model's own tests. Words and expected values come from the spec's encodings and from
95_test_vectors.md (the vector's id stands in each comment). The `witness_` theorems meet the hypotheses of the
obligations of that name. -/

namespace Sys2Proof.Tests

open Sys2Proof Sys2Proof.Machine

/-! ### Helpers -/

/-- A fresh context of one word with some registers and a stack preset. -/
def ready (w : Word) (presets : List (Reg × Byte)) (stack : List Byte) : State :=
  presets.foldl (fun s p => writeReg p.1 p.2 s) (setStack stack (State.create [w]))

/-- The next state of a step, where there is one. -/
def after (s : State) : Option State :=
  match step s with
  | .next t => some t
  | .fault _ => none
  | .refused _ => none

/-- The register a step leaves. -/
def regAfter (r : Reg) (s : State) : Option Byte := (after s).map (readReg r)

/-- The fault record a step leaves. -/
def recordAfter (s : State) : Option FaultRecord := (after s).bind State.fault

/-! ### Decoding: each constructor's word written out from its pattern (R71; V-E23) -/

theorem test_decode_int : decodeWord 0x0D0F = .int 13 15 := by decide
theorem test_decode_set : decodeWord 0x10C8 = .set 0 200 := by decide
theorem test_decode_psh : decodeWord 0x200C = .psh 0 12 := by decide
theorem test_decode_pop : decodeWord 0x3507 = .pop 5 7 := by decide
theorem test_decode_add : decodeWord 0x4001 = .add 0 1 := by decide
theorem test_decode_sub : decodeWord 0x5002 = .sub 0 2 := by decide
theorem test_decode_mul : decodeWord 0x6001 = .mul 0 1 := by decide
theorem test_decode_div : decodeWord 0x7001 = .div 0 1 := by decide
theorem test_decode_chk : decodeWord 0x8001 = .chk 0 1 := by decide
theorem test_decode_cns : decodeWord 0x9804 = .cns 8 4 := by decide
theorem test_decode_lpt : decodeWord 0xA403 = .lpt 4 3 := by decide
theorem test_decode_lsh : decodeWord 0xB001 = .lsh 0 1 := by decide
theorem test_decode_rsh : decodeWord 0xC001 = .rsh 0 1 := by decide
theorem test_decode_and : decodeWord 0xD001 = .and 0 1 := by decide
theorem test_decode_bor : decodeWord 0xE001 = .bor 0 1 := by decide
theorem test_decode_xor : decodeWord 0xF001 = .xor 0 1 := by decide

/-- Bits counted from the pattern of `lpt`: 1010 tttt vvvvvvvv with t = 0100 and v = 00000011 (R65, R71). -/
theorem test_decode_lpt_bits : decodeWord 0b1010010000000011 = .lpt 4 3 := by decide

/-- "set r0 200 assembles to 0x10C8 exactly" (L1-2). -/
theorem test_encode_set : encode (.set 0 200) = 0x10C8 := by decide

/-- The bytes of a word are most significant first (R48), and a string that ends inside a word is rejected. -/
theorem test_stored_word : wordBytes 0x10C8 = [0x10, 0xC8] := by decide
theorem test_truncated : decodeBytes [0x10] = .error .truncated ∧ bytecodeOfBytes [0x10, 0xC8, 0x00] = .error .truncated := by
  decide

/-- The host's numbering: a word of at most 16 bits decodes, a longer one is refused. -/
theorem test_table_word : decodeTableWord 16 0x4001 = some (.add 0 1) ∧ decodeTableWord 17 0 = none := by decide

/-- A placed word is fetched and run by the next step, from reset. -/
theorem test_placed_word : regAfter .r0 (State.reset.withFetchWord 16 0x10C8) = some 200 := by decide

/-! ### Well-formedness: an ill-formed term for each check -/

theorem test_target_check : (Instr.set 13 0).wellFormed = false ∧ (Instr.set 12 0).wellFormed = true := by decide
theorem test_value_check : (Instr.add 0 13).wellFormed = false ∧ (Instr.add 0 12).wellFormed = true := by decide
/-- 0x10: the low four bits name R0, but the whole field is compared (V-D4). -/
theorem test_value_check_whole : (Instr.add 0 0x10).wellFormed = false := by decide
/-- `int` decodes neither field, `set` takes every immediate (V-D6, V-D2). -/
theorem test_lazy_fields : (Instr.int 15 255).wellFormed = true ∧ (Instr.set 0 255).wellFormed = true := by decide

/-! ### One step of each instruction -/

/-- V-I1. -/
theorem test_int_halt : recordAfter (ready 0x0000 [] []) = some ⟨.halt, 1⟩ := by decide
/-- V-D6. -/
theorem test_int_ignores_fields : recordAfter (ready 0x0FFF [] []) = some ⟨.halt, 1⟩ := by decide
/-- V-S1. -/
theorem test_set : regAfter .rs (ready 0x1CFF [] []) = some 255 := by decide
/-- V-S3. -/
theorem test_set_bad_target : recordAfter (ready 0x1D05 [] []) = some ⟨.invalidTarget, 1⟩ := by decide
/-- V-S6: RN pushes the next index, RD what the earlier pushes made it. -/
theorem test_psh_special : (after (ready 0x2709 [(.r7, 5)] [])).map State.stack = some [5, 1, 2] := by decide
/-- V-S5: the range ascends whichever field is larger. -/
theorem test_psh_swapped :
    (after (ready 0x2200 [(.r0, 10), (.r1, 20), (.r2, 30)] [])).map State.stack = some [10, 20, 30] := by decide
/-- V-S11. -/
theorem test_pop : regAfter .r7 (ready 0x3507 [(.rd, 3)] [10, 20, 30]) = some 30 := by decide
/-- V-S18: a pop into RD, then one that counts down from it. -/
theorem test_pop_special :
    (after (ready 0x3809 [(.rd, 1)] [3, 9])).map (fun s => (readReg .rn s, readReg .rd s)) = some (3, 8) := by decide
/-- V-A2. -/
theorem test_add : regAfter .r0 (ready 0x4001 [(.r0, 200), (.r1, 55)] []) = some 255 := by decide
/-- V-A3. -/
theorem test_add_overflow :
    recordAfter (ready 0x4001 [(.r0, 250), (.r1, 10)] []) = some ⟨.registerOverflow, 1⟩ := by decide
/-- V-A9. -/
theorem test_sub : regAfter .r0 (ready 0x5002 [(.r0, 5), (.r2, 3)] []) = some 2 := by decide
/-- R161: 0 - 1 raises. -/
theorem test_sub_underflow :
    recordAfter (ready 0x5002 [(.r0, 0), (.r2, 1)] []) = some ⟨.registerOverflow, 1⟩ := by decide
/-- R162: 15 * 17 = 255 succeeds. -/
theorem test_mul : regAfter .r0 (ready 0x6001 [(.r0, 15), (.r1, 17)] []) = some 255 := by decide
/-- R162: 16 * 16 = 256 raises. -/
theorem test_mul_overflow :
    recordAfter (ready 0x6001 [(.r0, 16), (.r1, 16)] []) = some ⟨.registerOverflow, 1⟩ := by decide
/-- R163: 7 / 2 = 3. -/
theorem test_div : regAfter .r0 (ready 0x7001 [(.r0, 7), (.r1, 2)] []) = some 3 := by decide
/-- R163: 0 / 0 raises. -/
theorem test_div_zero : recordAfter (ready 0x7001 [] []) = some ⟨.registerOverflow, 1⟩ := by decide
/-- R180: 3 is less than 5; 0 is less than 255, unsigned. -/
theorem test_chk : regAfter .rf (ready 0x8001 [(.r0, 3), (.r1, 5)] []) = some Config.cmpCodes.lt := by rfl
theorem test_chk_unsigned : regAfter .rf (ready 0x8001 [(.r0, 0), (.r1, 255)] []) = some Config.cmpCodes.lt := by rfl
/-- R181: at reset RF = RC, so the move happens. -/
theorem test_cns : regAfter .rn (ready 0x9804 [(.r4, 12)] []) = some 12 := by decide
/-- R181: RF and RC differ, nothing moves. -/
theorem test_cns_false : regAfter .rn (ready 0x9804 [(.r4, 12), (.rf, 2)] []) = some 1 := by decide
/-- R182: index 1 of [10, 20, 30], counted from the bottom. -/
theorem test_lpt : regAfter .r4 (ready 0xA403 [(.r3, 1)] [10, 20, 30]) = some 20 := by decide
/-- R182: the index equals Len. -/
theorem test_lpt_out :
    recordAfter (ready 0xA403 [(.r3, 3)] [10, 20, 30]) = some ⟨.stackInvalidAccess, 1⟩ := by decide
/-- R201 and R202: the shift amounts under each reading of SHIFT_OVERSIZE, and the two worked examples. -/
theorem test_shift_amounts :
    shiftAmountFor .mask 9 = some 1 ∧ shiftAmountFor .zero 9 = none ∧ shiftAmountFor .zero 7 = some 7 := by decide
theorem test_lsh : shiftLeftBy 0xB4 (some 3) = 0xA0 := by decide
theorem test_rsh : shiftRightBy 0xB4 (some 2) = 0x2D := by decide
/-- R203 to R205: the worked examples. -/
theorem test_and : regAfter .r0 (ready 0xD001 [(.r0, 0xF0), (.r1, 0x3C)] []) = some 0x30 := by decide
theorem test_bor : regAfter .r0 (ready 0xE001 [(.r0, 0xF0), (.r1, 0x0F)] []) = some 0xFF := by decide
/-- R205: T = V clears. -/
theorem test_xor_self : regAfter .r0 (ready 0xF000 [(.r0, 0xA5)] []) = some 0 := by decide
/-- V-F1: the first step of an empty bytecode. -/
theorem test_fetch_empty : recordAfter State.reset = some ⟨.fetchInvalid, 0⟩ := by decide
/-- A step that succeeds outputs its word (R106). -/
theorem test_trace : (after (ready 0x10C8 [] [])).bind State.trace = some 0x10C8 := by decide

/-! ### The assembler -/

/-- V-E2, V-E6, V-E8, V-E22. -/
theorem test_assemble :
    assembleLine "int halt".toList = .ok 0x0000 ∧ assembleLine "set r0 r3".toList = .ok 0x1003 ∧
    assembleLine "set r0 007".toList = .ok 0x1007 ∧ assembleLine "pop rs r0".toList = .ok 0x3C00 := by decide
/-- V-E9, V-E14, V-E16, V-E17, V-E20. -/
theorem test_assemble_errors :
    assembleLine "set r0 256".toList = .error .noValue ∧ assembleLine "add r13 r0".toList = .error .noTarget ∧
    assembleLine "ADD r0 r1".toList = .error .noOpcode ∧ assembleLine "add  r0 r1".toList = .error .lineError ∧
    assembleLine "xyz r9 5".toList = .error .noOpcode := by decide
/-- V-E24. -/
theorem test_assemble_file :
    assemble "# sum\n\nset r0 5\n  set r1 3\nadd r0 r1\nint halt".toList = .ok [0x1005, 0x1103, 0x4001, 0x0000] := by
  decide
/-- V-E25. -/
theorem test_assemble_abort :
    assemble "set r0 1\nset r1 2\nfoo r0\nset r2 3".toList = .error ⟨.noOpcode, 2, "foo r0".toList⟩ := by decide

/-! ### Witnesses: states and operands that meet the hypotheses of each obligation -/

/-- A bytecode of 256 words, all the same, fetched at index 255. -/
def atLastIndex (w : Word) : State :=
  writeReg .rn 255 (State.create (List.replicate 256 w))

theorem atLastIndex_rn (w : Word) : readReg .rn (atLastIndex w) = 255 := readReg_writeReg_same _ _ _

theorem atLastIndex_word (w : Word) :
    (atLastIndex w).code[(readReg .rn (atLastIndex w)).toNat]? = some w := by
  rw [atLastIndex_rn]
  exact List.getElem?_replicate_of_lt (by decide)

/-- A state that runs READLINE with the line given. -/
def reading (line : List Byte) (presets : List (Reg × Byte)) (stack : List Byte) : State :=
  { ready 0 ((.rs, Config.intCodes.readline) :: presets) stack with lineAnswers := [.line line] }

/-- Pushes that end within 255 elements meet no finite capacity: every capacity is at least 255. -/
theorem room_below {n : Nat} {s : State} (h1 : (readReg .rd s).toNat + n ≤ 255) (h2 : s.stack.length + n ≤ 255) :
    roomFor n s :=
  ⟨h1, fun c _ j hj => by have := c.size_ge; omega⟩

/-- A push beyond RD = 255 has no room. -/
theorem no_room {n : Nat} {s : State} (h : 255 < (readReg .rd s).toNat + n) : ¬ roomFor n s :=
  fun hr => absurd hr.1 (by omega)

theorem witness_DecodeEncodeRoundTrip : (Instr.set 13 0).wellFormed = false := by decide

theorem witness_OpcodeMapSelectsInstruction : opcodeBits 0x0FFF = 0x0 ∧ opcodeBits 0xF001 = 0xF := by decide

theorem witness_InvalidFieldsFault :
    ((Instr.set 13 0).targetOk = false ∧ (Instr.add 12 13).targetOk = true ∧ (Instr.add 12 13).valueOk = false) ∧
    ∃ u, (Instr.div 12 12).targetOk = true ∧ (Instr.div 12 12).valueOk = true ∧ State.reset.fault = none ∧
      exec (.div 12 12) State.reset = .next u ∧ u.fault = some ⟨.registerOverflow, 0⟩ :=
  ⟨by decide, _, rfl, rfl, rfl, rfl, rfl⟩

theorem witness_PushCheckedAppends_raises : 255 < (readReg .rd (ready 0 [(.rd, 255)] [])).toNat + 1 := by decide
theorem witness_PushCheckedAppends_full (c : StackCapacity) :
    (setStack (List.replicate c.size 0) State.reset).stack.length = c.size := by simp
theorem witness_PushCheckedAppends_appends :
    (readReg .rd (ready 0 [(.rd, 254)] [])).toNat + 1 ≤ 255 ∧
    ∀ c, Config.stackCapacity = some c → (ready 0 [(.rd, 254)] []).stack.length ≠ c.size :=
  ⟨by decide, fun c _ h => absurd c.size_ge (by rw [← h]; decide)⟩

theorem witness_PopCheckedRemovesTail :
    (ready 0 [(.rd, 4)] []).stack = [] ∧ readReg .rd (ready 0 [] [7]) = 0 ∧
    (ready 0 [(.rd, 1)] [5, 7]).stack = [5] ++ [7] ∧ readReg .rd (ready 0 [(.rd, 1)] [5, 7]) ≠ 0 := by decide

theorem witness_StepOnlyWhileRunning : (raise .halt State.reset).status ≠ .running ∧ State.reset.status = .running := by
  decide

theorem witness_FetchPastEndFaults :
    (ready 0 [(.rn, 1)] []).status = .running ∧
    (ready 0 [(.rn, 1)] []).code.length ≤ (readReg .rn (ready 0 [(.rn, 1)] [])).toNat := by decide

theorem witness_FetchAdvancesRn :
    ((ready 0x10C8 [] []).code[(readReg .rn (ready 0x10C8 [] [])).toNat]? = some 0x10C8 ∧
      readReg .rn (ready 0x10C8 [] []) ≠ 255) ∧
    ((atLastIndex 0).code[(readReg .rn (atLastIndex 0)).toNat]? = some 0 ∧
      readReg .rn (atLastIndex 0) = 255 ∧ targetBits 0 ≠ 8 ∧ (atLastIndex 0).status = .running) ∧
    ((atLastIndex 0x18FF).code[(readReg .rn (atLastIndex 0x18FF)).toNat]? = some 0x18FF ∧
      readReg .rn (atLastIndex 0x18FF) = 255 ∧ targetBits 0x18FF = 8) :=
  ⟨by decide, ⟨atLastIndex_word 0, atLastIndex_rn _, by decide, rfl⟩,
    ⟨atLastIndex_word 0x18FF, atLastIndex_rn _, by decide⟩⟩

/-- The read that no host answers, for the stop. -/
def unanswered : State :=
  { ready 0 [(.rs, Config.intCodes.readline)] [] with lineAnswers := [.silent] }

theorem unanswered_stops (s : State) (h : readReg .rs s = Config.intCodes.readline) (ha : lineAnswer s = .silent) :
    ∀ t v, exec (.int t v) s = .fault .hostSilent := by
  intro t v
  show execInt t v s = _
  unfold execInt
  rw [h, if_neg Config.intCodes.readline_ne_halt, if_neg Config.intCodes.printline_ne_readline.symm, if_pos rfl]
  unfold readLine
  rw [ha]

theorem witness_StepRunsDecodedInstruction :
    (∃ u t, State.status (ready 0x10C8 [] []) = .running ∧ fetch (ready 0x10C8 [] []) = .ok (0x10C8, u) ∧
      exec (decodeWord 0x10C8) u = .next t) ∧
    ∃ u, unanswered.status = .running ∧ fetch unanswered = .ok (0, u) ∧
      exec (decodeWord 0) u = .fault .hostSilent :=
  ⟨⟨_, _, rfl, rfl, rfl⟩, ⟨_, rfl, rfl, unanswered_stops _ rfl rfl _ _⟩⟩

theorem witness_TraceWordOfSuccessfulStep :
    (∃ t, step (ready 0x10C8 [] []) = .next t ∧ t.status = .running) ∧
    ∃ t, step (ready 0 [] []) = .next t ∧ t.status ≠ .running :=
  ⟨⟨_, rfl, rfl⟩, ⟨_, rfl, by decide⟩⟩

theorem witness_SetRnJumps :
    ((ready 0x1805 [] []).status = .running ∧
      (ready 0x1805 [] []).code[(readReg .rn (ready 0x1805 [] [])).toNat]? = some (encode (.set 8 5))) ∧
    ((atLastIndex 0x18FF).status = .running ∧
      (atLastIndex 0x18FF).code[(readReg .rn (atLastIndex 0x18FF)).toNat]? = some (encode (.set 8 255))) :=
  ⟨by decide, ⟨rfl, atLastIndex_word _⟩⟩

theorem witness_SequentialUnlessRnNamed :
    ∃ t, (ready 0x10C8 [] []).status = .running ∧ (ready 0x10C8 [] []).code[0]? = some 0x10C8 ∧
      readReg .rn (ready 0x10C8 [] []) = 0 ∧ ¬ namesDestination (decodeWord 0x10C8) .rn ∧
      step (ready 0x10C8 [] []) = .next t ∧ t.status = .running :=
  ⟨_, rfl, rfl, rfl, by show ¬ (8 = 0); decide, rfl, rfl⟩

theorem witness_FaultEntryRecords :
    ∃ t, State.reset.status = .running ∧ step State.reset = .next t ∧ t.status ≠ .running :=
  ⟨_, rfl, rfl, by decide⟩

theorem witness_SingleElementFaultWritesNothing : singleElement (.add 0 0) := by
  unfold singleElement; decide

theorem witness_OpcodeRaisesItsOwnKinds :
    ∃ u, State.reset.fault = none ∧ exec (.int 0 0) State.reset = .next u ∧ u.fault = some ⟨.halt, 0⟩ :=
  ⟨_, rfl, rfl, rfl⟩

theorem witness_InvalidOpcodeNeverRaised : ∃ t, recordAgrees State.reset ∧ step State.reset = .next t :=
  ⟨_, rfl, rfl⟩

/-- A state that runs PRINTLINE with the host's reply given. -/
def printing (reply : PrintReply) : State :=
  { ready 0 [(.rs, Config.intCodes.printline)] [72, 105] with printReplies := [reply] }

theorem printing_runs (t : Nibble) (v : Byte) (reply : PrintReply) :
    exec (.int t v) (printing reply) = printLine (printing reply) := by
  show execInt t v _ = _
  unfold execInt
  rw [show readReg .rs (printing reply) = Config.intCodes.printline from rfl,
    if_neg Config.intCodes.printline_ne_halt, if_pos rfl]

theorem witness_InterruptOnlyOnHostError :
    (∃ u, (printing .ioError).fault = none ∧ exec (.int 0 0) (printing .ioError) = .next u ∧
      u.fault = some ⟨.interrupt, 0⟩) ∧
    (readReg .rs (printing .ioError) = Config.intCodes.printline ∧ printReply (printing .ioError) = .ioError) ∧
    (readReg .rs { unanswered with lineAnswers := [.ioError] } = Config.intCodes.readline ∧
      lineAnswer { unanswered with lineAnswers := [.ioError] } = .ioError) :=
  ⟨⟨_, rfl, printing_runs _ _ _, rfl⟩, ⟨rfl, rfl⟩, ⟨rfl, rfl⟩⟩

theorem witness_HaltedOnlyByIntAtZero :
    ∃ t, (ready 0 [] []).status = .running ∧ step (ready 0 [] []) = .next t ∧ t.status = .halted :=
  ⟨_, rfl, rfl, rfl⟩

theorem witness_RunningMachineSteps : State.reset.status = .running ∧ unanswered.status = .running := ⟨rfl, rfl⟩

theorem witness_IntHaltsAtZero : readReg .rs State.reset = 0 := by decide

/-- V-I2: the output is [72, 105]. -/
theorem witness_IntPrintsLine :
    readReg .rs (printing .accepted) = Config.intCodes.printline ∧ printReply (printing .accepted) = .accepted :=
  ⟨rfl, rfl⟩
theorem test_int_prints :
    ∃ u, exec (.int 0 0) (printing .accepted) = .next u ∧ u.output = [[72, 105]] :=
  ⟨_, printing_runs _ _ _, rfl⟩

/-- V-I6, and the same with RD reaching 255 exactly. -/
theorem witness_IntReadsLine :
    (readReg .rs (reading [97, 98, 99, 100] [(.r0, 3)] []) = Config.intCodes.readline ∧
      lineAnswer (reading [97, 98, 99, 100] [(.r0, 3)] []) = .line [97, 98, 99, 100] ∧
      roomFor (min 3 4) (reading [97, 98, 99, 100] [(.r0, 3)] [])) ∧
    roomFor (min 3 4) (reading [97, 98, 99, 100] [(.r0, 3), (.rd, 252)] []) :=
  ⟨⟨rfl, rfl, room_below (by decide) (by decide)⟩, room_below (by decide) (by decide)⟩

/-- V-I11's RD: the first push succeeds, the second does not; and with RD = 255 the first does not. -/
theorem witness_IntReadStopsAtFullStack :
    (roomFor 1 (reading [97, 98, 99] [(.r0, 3), (.rd, 254)] []) ∧
      ¬ roomFor (1 + 1) (reading [97, 98, 99] [(.r0, 3), (.rd, 254)] [])) ∧
    (roomFor 0 (reading [97, 98, 99] [(.r0, 3), (.rd, 255)] []) ∧
      ¬ roomFor (0 + 1) (reading [97, 98, 99] [(.r0, 3), (.rd, 255)] [])) ∧
    readReg .rs (reading [97, 98, 99] [(.r0, 3), (.rd, 254)] []) = Config.intCodes.readline ∧
    lineAnswer (reading [97, 98, 99] [(.r0, 3), (.rd, 254)] []) = .line [97, 98, 99] ∧
    1 < min (readReg .r0 (reading [97, 98, 99] [(.r0, 3), (.rd, 254)] [])).toNat 3 :=
  ⟨⟨room_below (by decide) (by decide), no_room (by decide)⟩,
    ⟨room_below (by decide) (by decide), no_room (by decide)⟩, rfl, rfl, by decide⟩

theorem witness_IntHeldBySilentHost :
    readReg .rs unanswered = Config.intCodes.readline ∧ lineAnswer unanswered = .silent := ⟨rfl, rfl⟩

/-- Of 1, 2 and 3 at most two are the open codes. -/
theorem witness_IntUnimplementedSelector :
    ∃ x : Byte, readReg .rs (ready 0 [(.rs, x)] []) ≠ 0 ∧
      readReg .rs (ready 0 [(.rs, x)] []) ≠ Config.intCodes.printline ∧
      readReg .rs (ready 0 [(.rs, x)] []) ≠ Config.intCodes.readline := by
  have key : ∀ p r : Byte, ∃ x : Byte, x ≠ 0 ∧ x ≠ p ∧ x ≠ r := by
    intro p r
    by_cases h1 : (1 : Byte) ≠ p ∧ (1 : Byte) ≠ r
    · exact ⟨1, by decide, h1⟩
    · by_cases h2 : (2 : Byte) ≠ p ∧ (2 : Byte) ≠ r
      · exact ⟨2, by decide, h2⟩
      · refine ⟨3, by decide, ?_, ?_⟩ <;> rintro rfl <;> simp at h1 h2 <;> exact absurd (h1.trans h2.symm) (by decide)
  obtain ⟨x, h⟩ := key Config.intCodes.printline Config.intCodes.readline
  exact ⟨x, by simpa [ready] using h⟩

theorem witness_SetLoadsImmediate :
    opcodeBits 0x10C8 = 0x1 ∧ 12 < (13 : Nibble).toNat ∧ (12 : Nibble).toNat = Reg.rs.id := by decide

/-- All 13 registers, RD reaching 255 exactly; and one register. -/
theorem witness_PshPushesRange :
    ((0 : Nibble).toNat = Reg.r0.id ∧ (12 : Byte).toNat = Reg.rs.id ∧
      roomFor (regRange .r0 .rs).length (ready 0 [(.rd, 242)] [])) ∧
    roomFor (regRange .r0 .r0).length (ready 0 [(.rd, 254)] []) :=
  ⟨⟨by decide, by decide, room_below (by decide) (by decide)⟩, room_below (by decide) (by decide)⟩

/-- V-S8's RD, and V-S9's. -/
theorem witness_PshStopsAtFullStack :
    (1 < (regRange .r0 .r1).length ∧ roomFor 1 (ready 0 [(.rd, 254)] []) ∧
      ¬ roomFor (1 + 1) (ready 0 [(.rd, 254)] [])) ∧
    (0 < (regRange .r0 .r0).length ∧ roomFor 0 (ready 0 [(.rd, 255)] []) ∧
      ¬ roomFor (0 + 1) (ready 0 [(.rd, 255)] [])) :=
  ⟨⟨by decide, room_below (by decide) (by decide), no_room (by decide)⟩,
    ⟨by decide, room_below (by decide) (by decide), no_room (by decide)⟩⟩

/-- A push that fails at its second element with RN in the range: fault_ip is RN at the time of the fault, whatever the
faulted context then holds (R221, R224). -/
theorem test_psh_fault_ip :
    ∃ u, exec (.psh 8 9) (ready 0 [(.rn, 1), (.rd, 254)] []) = .next u ∧ u.fault = some ⟨.stackOverflow, 1⟩ :=
  ⟨_, rfl, raisePartial_fault .stackOverflow (regRange .rn .rd) 1 (ready 0 [(.rn, 1), (.rd, 255)] [1])⟩

/-- V-S11, and V-S18 with RD in the range. -/
theorem witness_PopPopsRange :
    popsSucceed (regRange .r5 .r7).reverse (regRange .r5 .r7).length (ready 0 [(.rd, 3)] [10, 20, 30]) ∧
    popsSucceed (regRange .rn .rd).reverse (regRange .rn .rd).length (ready 0 [(.rd, 1)] [3, 9]) := by
  unfold popsSucceed; decide

/-- V-S16: the second pop meets RD = 0; V-S14: the first meets an empty stack. -/
theorem witness_PopStopsAtUnderflow :
    (1 < (regRange .r0 .r1).length ∧ popsSucceed (regRange .r0 .r1).reverse 1 (ready 0 [(.rd, 1)] [5, 6]) ∧
      ¬ popsSucceed (regRange .r0 .r1).reverse (1 + 1) (ready 0 [(.rd, 1)] [5, 6])) ∧
    (0 < (regRange .r3 .r3).length ∧ popsSucceed (regRange .r3 .r3).reverse 0 State.reset ∧
      ¬ popsSucceed (regRange .r3 .r3).reverse (0 + 1) State.reset) := by
  unfold popsSucceed; decide

theorem witness_PopUndoesPsh :
    Reg.rd ∉ regRange .r0 .rn ∧ roomFor (regRange .r0 .rn).length (ready 0 [(.rd, 246)] []) :=
  ⟨by decide, room_below (by decide) (by decide)⟩

/-- The fields of a register-operand instruction at the edges of their ranges, as every such obligation meets them. -/
theorem witness_register_fields :
    (12 : Nibble).toNat = Reg.rs.id ∧ (12 : Byte).toNat = Reg.rs.id ∧ (0 : Nibble).toNat = Reg.r0.id ∧
    12 < (13 : Nibble).toNat ∧ ((12 : Nibble).toNat ≤ 12 ∧ 12 < (13 : Byte).toNat) := by decide

/-- The first operand in R0, the second in R1. -/
def operands (a b : Byte) : State := ready 0 [(.r0, a), (.r1, b)] []

theorem witness_AddChecked :
    255 < (readReg .r0 (operands 200 56)).toNat + (readReg .r1 (operands 200 56)).toNat ∧
    (readReg .r0 (operands 200 55)).toNat + (readReg .r1 (operands 200 55)).toNat ≤ 255 := by decide

theorem witness_SubChecked :
    (readReg .r0 (operands 4 5)).toNat < (readReg .r1 (operands 4 5)).toNat ∧
    (readReg .r1 (operands 5 5)).toNat ≤ (readReg .r0 (operands 5 5)).toNat := by decide

theorem witness_MulChecked :
    255 < (readReg .r0 (operands 16 16)).toNat * (readReg .r1 (operands 16 16)).toNat ∧
    (readReg .r0 (operands 15 17)).toNat * (readReg .r1 (operands 15 17)).toNat ≤ 255 := by decide

theorem witness_DivChecked :
    (readReg .r1 (operands 7 0)).toNat = 0 ∧ (readReg .r1 (operands 7 1)).toNat ≠ 0 := by decide

theorem witness_ChkWritesComparison :
    (readReg .r0 (operands 3 3)).toNat = (readReg .r1 (operands 3 3)).toNat ∧
    (readReg .r0 (operands 3 4)).toNat < (readReg .r1 (operands 3 4)).toNat ∧
    (readReg .r1 (operands 4 3)).toNat < (readReg .r0 (operands 4 3)).toNat := by decide

theorem witness_CnsMovesWhenEqual :
    readReg .rf State.reset = readReg .rc State.reset ∧
    readReg .rf (ready 0 [(.rf, 1)] []) ≠ readReg .rc (ready 0 [(.rf, 1)] []) := by decide

theorem witness_LptLoadsStackElement :
    (ready 0 [(.r3, 3)] [10, 20, 30]).stack.length ≤ (readReg .r3 (ready 0 [(.r3, 3)] [10, 20, 30])).toNat ∧
    (ready 0 [(.r3, 2)] [10, 20, 30]).stack[(readReg .r3 (ready 0 [(.r3, 2)] [10, 20, 30])).toNat]? = some 30 := by
  decide

theorem witness_LshShiftsLeft :
    8 ≤ (readReg .r1 (operands 0xB4 8)).toNat ∧ (readReg .r1 (operands 0xB4 7)).toNat < 8 := by decide

theorem witness_RshShiftsRight :
    8 ≤ (readReg .r1 (operands 0xB4 8)).toNat ∧ (readReg .r1 (operands 0xB4 7)).toNat < 8 := by decide

theorem witness_AndIsBitwise : opcodeBits 0xD001 = 0xD ∧ (1 : Byte).toNat = Reg.r1.id := by decide
theorem witness_BorIsBitwise : opcodeBits 0xE001 = 0xE ∧ (1 : Byte).toNat = Reg.r1.id := by decide
theorem witness_XorIsBitwise : opcodeBits 0xF001 = 0xF ∧ (1 : Byte).toNat = Reg.r1.id := by decide

/-- One state meets the hypotheses of every invariant: the step of `set r0 200` goes on. -/
theorem witness_invariants :
    ∃ t, (ready 0x10C8 [] []).code = [0x10C8] ∧ recordAgrees (ready 0x10C8 [] []) ∧
      withinCapacity (ready 0x10C8 [] []) ∧ depthMirrors (ready 0x10C8 [] []) ∧
      (∀ w, (ready 0x10C8 [] []).code[(readReg .rn (ready 0x10C8 [] [])).toNat]? = some w →
        ¬ namesDestination (decodeWord w) .rd) ∧
      step (ready 0x10C8 [] []) = .next t ∧ t.status = .running := by
  refine ⟨_, rfl, rfl, fun _ c _ => Nat.zero_le c.size, rfl, fun w hw => ?_, rfl, rfl⟩
  cases Option.some.inj hw
  show ¬ (9 = 0)
  decide

theorem witness_EndedRunStaysEnded :
    (∃ t, runFor 1 State.reset = .ended t) ∧ ∃ t, runFor 0 State.reset = .unfinished t := ⟨⟨_, rfl⟩, ⟨_, rfl⟩⟩

theorem witness_AssembledWordIsWellFormed : assembleLine "set r0 200".toList = .ok 0x10C8 := by decide

theorem witness_FileAssemblesLineByLine :
    assembleFrom 0 ["# a".toList, "set r0 5".toList] = .ok [0x1005] ∧
    assembleFrom 0 ["set r0 1".toList, "foo r0".toList] = .error ⟨.noOpcode, 1, "foo r0".toList⟩ := by decide

/-- The three fetches, each with a fault: past the end, at index 255, and an `int` at index 0 that halts. -/
theorem witness_FaultIpIsRnAtFault :
    (∃ t f, State.reset.status = .running ∧ State.reset.fault = none ∧ step State.reset = .next t ∧
      t.fault = some f ∧ State.reset.code[(readReg .rn State.reset).toNat]? = none) ∧
    (∃ t f, (atLastIndex 0).status = .running ∧ (atLastIndex 0).fault = none ∧ step (atLastIndex 0) = .next t ∧
      t.fault = some f ∧ readReg .rn (atLastIndex 0) = 255 ∧ targetBits 0 ≠ 8) ∧
    ∃ t f, (ready 0 [] []).status = .running ∧ (ready 0 [] []).fault = none ∧ step (ready 0 [] []) = .next t ∧
      t.fault = some f ∧ (ready 0 [] []).code[0]? = some 0 ∧ readReg .rn (ready 0 [] []) = 0 ∧
      (decodeWord 0).opcode ≠ .pop :=
  ⟨⟨_, _, rfl, rfl, rfl, rfl, rfl⟩, ⟨raise .fetchNext (atLastIndex 0), _, rfl, rfl, by
      have h := atLastIndex_word 0
      rw [atLastIndex_rn] at h
      unfold step fetch
      rw [if_pos (show (atLastIndex 0).status = .running from rfl)]
      simp only [atLastIndex_rn, h]
      rfl, rfl, atLastIndex_rn _, by decide⟩,
    ⟨_, _, rfl, rfl, rfl, rfl, rfl, rfl, by decide⟩⟩

end Sys2Proof.Tests
end

section
/-! Settled obligations of the family 00_scope.md. -/

namespace Sys2Proof.Machine

/-- Settles O19: each of the three answers `exec_single` allows is a next state, and writing one register or none
(R10) leaves the status and the fault record as they were. -/
theorem singleElementFaultWritesNothing : Obligations.SingleElementFaultWritesNothing := by
  intro i s hi
  cases exec_single i s hi with
  | raised k hk h => exact ⟨raise k s, h, .inr ⟨k, hk, rfl⟩⟩
  | wrote r x _ h => exact ⟨writeReg r x s, h, .inl ⟨writeReg_status .., writeReg_fault ..⟩⟩
  | same h => exact ⟨s, h, .inl ⟨rfl, rfl⟩⟩

end Sys2Proof.Machine
end

section
/-! What a step of the whole machine can do, in the two forms the invariants of the family 10_state.md need: it ends the
run with a fault, or it goes on. -/

namespace Sys2Proof.Machine

theorem running_of_step_next {s t : State} (h : step s = .next t) : s.status = .running := by
  by_contra hs
  simp [step, hs] at h

/-- Everything a step can do to the run: a fault ends it, with the bytecode as it was and Halt raised before any
element, or it goes on and puts out its trace word. -/
theorem step_ends_or_goesOn {s t : State} (h : step s = .next t) :
    (∃ k range n v, (n = 0 ∨ k ≠ .halt) ∧ v.code = s.code ∧ t = raisePartial k range n v) ∨
    (t.code = s.code ∧ t.status = .running ∧ t.fault = s.fault) := by
  have hrun := running_of_step_next h
  rcases step_cases hrun h with ⟨k, _, _, rfl⟩ | ⟨w, x, u, _, _, hu, ht⟩
  · exact .inl ⟨k, [], 0, s, .inl rfl, rfl, rfl⟩
  · rcases exec_next_cases hu with ⟨hcode, hstatus, hfault, _⟩ | ⟨k, range, n, v, _, hn, rfl, hcode, _⟩
    · rcases ht with ⟨_, rfl⟩ | ⟨hne, _⟩
      · exact .inr ⟨hcode, hstatus.trans hrun, hfault⟩
      · exact absurd (hstatus.trans hrun) hne
    · rcases ht with ⟨hr, _⟩ | ⟨_, rfl⟩
      · exact absurd hr (raisePartial_status_ne_running k range n v)
      · exact .inl ⟨k, range, n, v, hn, hcode, rfl⟩

/-- Settles O50: neither a fault nor a step that goes on changes the bytecode. -/
theorem stepKeepsBytecode : Obligations.StepKeepsBytecode := by
  rintro code s t rfl h
  rcases step_ends_or_goesOn h with ⟨k, range, n, v, _, hcode, rfl⟩ | ⟨hcode, _, _⟩
  · rw [raisePartial_code, hcode]
  · exact hcode

/-! ### The status and the fault record -/

theorem recordAgrees_raise (k : FaultKind) (s : State) : recordAgrees (raise k s) := by
  unfold recordAgrees
  by_cases hk : k = .halt
  · subst hk; rfl
  · simp only [raise_status, if_neg hk]
    exact ⟨k, readReg .rn s, hk, rfl, fun _ => rfl⟩

/-- Free values may separate RN from the recorded index, but only where PARTIAL_EFFECTS is Unspecified (R224). -/
theorem recordAgrees_raisePartial {k : FaultKind} {n : Nat} (hn : n = 0 ∨ k ≠ .halt) (range : List Reg) (s : State) :
    recordAgrees (raisePartial k range n s) := by
  rcases raisePartial_cases k range n s with e | ⟨hfree, _⟩
  · rw [e]; exact recordAgrees_raise k s
  · rcases hn with rfl | hk
    · exact recordAgrees_raise k s
    · unfold recordAgrees
      simp only [raisePartial_status, if_neg hk]
      exact ⟨k, readReg .rn s, hk, raisePartial_fault .., fun hret => by rw [hfree] at hret; cases hret⟩

/-- Settles O51: a fault fills the record to match the status it sets, and a step that goes on touches neither. -/
theorem stepKeepsRecordAgreement : Obligations.StepKeepsRecordAgreement := by
  intro s t hs h
  rcases step_ends_or_goesOn h with ⟨k, range, n, v, hn, _, rfl⟩ | ⟨_, hstatus, hfault⟩
  · exact recordAgrees_raisePartial hn range v
  · simp only [recordAgrees, running_of_step_next h] at hs
    simp only [recordAgrees, hstatus, hfault, hs]

/-! ### Invariants of the registers and the stack -/

/-- A property of the registers and the stack that every single change an instruction makes while the run goes on
keeps: the advance of RN, a write of a register it names as its destination, a push, and the removal of the tail. -/
structure KeptWhileRunning (i : Instr) (P : State → Prop) : Prop where
  ofSame : ∀ s u : State, u.regs = s.regs → u.stack = s.stack → P s → P u
  advance : ∀ x s, P s → P (writeReg .rn x s)
  write : ∀ r x s, namesDestination i r → P s → P (writeReg r x s)
  push : ∀ v s, P s → roomFor 1 s → P (writeReg .rd (readReg .rd s + 1) (setStack (s.stack ++ [v]) s))
  pop : ∀ st v s, P s → s.stack = st ++ [v] → readReg .rd s ≠ 0 →
    P (writeReg .rd (readReg .rd s - 1) (setStack st s))

/-- What every pop into a register of the list keeps, the sequence of pops keeps. -/
theorem popEach_keeps_of_mem {P : State → Prop} :
    ∀ (l : List Reg) (n : Nat) (s : State),
      (∀ r ∈ l, ∀ st v s, P s → s.stack = st ++ [v] → readReg .rd s ≠ 0 →
        P (writeReg r v (writeReg .rd (readReg .rd s - 1) (setStack st s)))) →
      P s → resultHolds P (popEach l n s)
  | [], _, _, _, h => h
  | r :: rest, n, s, hpop, h => by
    unfold popEach
    rcases popChecked_cases s with ⟨st, v, hs, h0, e⟩ | ⟨_, e⟩
    · rw [e]
      exact popEach_keeps_of_mem rest (n + 1) _ (fun q hq => hpop q (List.mem_cons_of_mem r hq))
        (hpop r List.mem_cons_self st v s h hs h0)
    · rw [e]; exact h

/-- An instruction that leaves the machine running keeps every such property. -/
theorem exec_goesOn_keeps {i : Instr} {P : State → Prop} (hP : KeptWhileRunning i P) {s u : State} (hs : P s)
    (h : exec i s = .next u) (hrun : u.status = .running) : P u := by
  have hraise : ∀ k v, u ≠ raise k v := by rintro k v rfl; exact raise_status_ne_running v k hrun
  have hpart : ∀ k range n v, u ≠ raisePartial k range n v := by
    rintro k range n v rfl; exact raisePartial_status_ne_running k range n v hrun
  by_cases hi : singleElement i
  · rcases exec_single i s hi with ⟨k, _, e⟩ | ⟨r, x, hr, e⟩ | e <;> cases e.symm.trans h
    · exact absurd rfl (hraise k s)
    · exact hP.write r x s hr hs
    · exact hs
  · cases i <;> simp [singleElement, Instr.opcode] at hi
    case int t v =>
      cases int_cases t v s with
      | halt _ e | printError _ _ e | readError _ _ e | unimplemented _ _ _ e =>
        cases e.symm.trans h; exact absurd rfl (hraise _ _)
      | silent _ _ e => cases e.symm.trans h
      | printed _ _ e => cases e.symm.trans h; exact hP.ofSame s _ rfl rfl hs
      | read _ bytes _ w hw e =>
        cases e.symm.trans h
        have hpushed := pushEach_keeps (fun b _ => b) hP.push (bytes.take (readCount bytes s)) 0 (takeLine s)
          (hP.ofSame s _ rfl rfl hs)
        rw [hw] at hpushed
        exact hP.write .r0 _ w rfl hpushed
      | readFull _ _ _ n w _ e => cases e.symm.trans h; exact absurd rfl (hpart _ _ _ _)
    case psh t v =>
      rcases psh_cases t v s with ⟨k, _, e⟩ | ⟨rt, rv, _, _, ⟨w, hw, e⟩ | ⟨n, w, _, e⟩⟩ <;> cases e.symm.trans h
      · exact absurd rfl (hraise k s)
      · have hpushed := pushEach_keeps readReg hP.push (regRange rt rv) 0 s hs
        rw [hw] at hpushed
        exact hpushed
      · exact absurd rfl (hpart _ _ _ _)
    case pop t v =>
      rcases pop_cases t v s with ⟨k, _, e⟩ | ⟨rt, rv, ht, hv, ⟨w, hw, e⟩ | ⟨n, w, _, e⟩⟩ <;> cases e.symm.trans h
      · exact absurd rfl (hraise k s)
      · have hnamed : ∀ r ∈ (regRange rt rv).reverse, namesDestination (.pop t v) r := fun r hr => by
          rw [namesDestination, ht, hv]
          exact (mem_regRange rt rv r).mp (List.mem_reverse.mp hr)
        have hpopped := popEach_keeps_of_mem (regRange rt rv).reverse 0 s
          (fun r hr st x q hq hst h0 => hP.write r x _ (hnamed r hr) (hP.pop st x q hq hst h0)) hs
        rw [hw] at hpopped
        exact hpopped
      · exact absurd rfl (hpart _ _ _ _)

/-- A step that goes on keeps every property that its instruction keeps while running. -/
theorem step_goesOn_keeps {P : State → Prop} {s t : State}
    (hP : ∀ w, s.code[(readReg .rn s).toNat]? = some w → KeptWhileRunning (decodeWord w) P) (hs : P s)
    (h : step s = .next t) (hrun : t.status = .running) : P t := by
  rcases step_cases (running_of_step_next h) h with ⟨k, _, _, rfl⟩ | ⟨w, x, u, hw, _, hu, ht⟩
  · exact absurd hrun (raise_status_ne_running s k)
  · have hk := hP w hw
    rcases ht with ⟨hur, rfl⟩ | ⟨hne, rfl⟩
    · exact hk.ofSame u _ rfl rfl (exec_goesOn_keeps hk (hk.advance x s hs) hu hur)
    · exact absurd hrun hne

/-- The stack is no longer than a finite STACK_CAPACITY (R30). -/
def stackFits (s : State) : Prop := ∀ c, Config.stackCapacity = some c → s.stack.length ≤ c.size

/-- A push is checked against the capacity (R58), a pop shortens the stack, and a register write leaves it. -/
theorem stackFits_kept (i : Instr) : KeptWhileRunning i stackFits where
  ofSame s u _ hst h c hc := by rw [hst]; exact h c hc
  advance _ _ h := h
  write _ _ _ _ h := h
  push v s h hroom c hc := by
    have hle := h c hc
    have hne := hroom.2 c hc 0 Nat.one_pos
    simp only [writeReg_stack, setStack_stack, List.length_append, List.length_singleton]
    omega
  pop st v s h hst _ c hc := by
    have hle := h c hc
    rw [hst, List.length_append] at hle
    exact Nat.le_of_add_right_le hle

/-- Settles O52: a step that goes on changes the stack by checked pushes and by pops alone. -/
theorem stepKeepsStackCapacity : Obligations.StepKeepsStackCapacity := by
  intro s t hs h hrun
  exact step_goesOn_keeps (fun w _ => stackFits_kept (decodeWord w)) (hs (running_of_step_next h)) h hrun

/-- A register other than RD may take any value. -/
theorem depthMirrors_writeReg {r : Reg} (hr : r ≠ .rd) {s : State} (h : depthMirrors s) (x : Byte) :
    depthMirrors (writeReg r x s) := by
  unfold depthMirrors
  rw [readReg_writeReg_ne hr.symm]
  exact h

/-- Pushes and pops move RD with the length of the stack (R58, R59), and no other change touches RD. -/
theorem depthMirrors_kept {i : Instr} (hi : ¬ namesDestination i .rd) : KeptWhileRunning i depthMirrors where
  ofSame s u hregs hst h := by
    unfold depthMirrors readReg at h ⊢
    rw [hregs, hst]; exact h
  advance x s h := depthMirrors_writeReg (by decide) h x
  write r x s hr h := depthMirrors_writeReg (fun e => hi (e ▸ hr)) h x
  push v s h hroom := by
    have hmax := hroom.1
    unfold depthMirrors at h ⊢
    simp only [readReg_writeReg_same, writeReg_stack, setStack_stack, List.length_append, List.length_singleton]
    rw [BitVec.toNat_add_of_lt (by simp; omega), h]
    rfl
  pop st v s h hst h0 := by
    have hpos := toNat_ne_zero h0
    have hle : (1 : Byte) ≤ readReg .rd s := by rw [BitVec.le_def]; simp; omega
    unfold depthMirrors at h ⊢
    rw [hst, List.length_append, List.length_singleton] at h
    rw [readReg_writeReg_same, BitVec.toNat_sub_of_le hle, h]
    rfl

/-- Settles O53: while the run goes on, only pushes, pops and a destination the instruction names can move RD. -/
theorem stepKeepsDepthMirror : Obligations.StepKeepsDepthMirror := by
  intro s t hs hname h hrun
  exact step_goesOn_keeps (fun w hw => depthMirrors_kept (hname w hw)) hs h hrun

end Sys2Proof.Machine
end

section
/-! Register writes, and the register-file entry that no register names (R20 to R22). -/

namespace Sys2Proof.Machine

/-- Settles O7: the laws of `writeReg` for the register written, the other registers and each other field. -/
theorem registerWriteIsReadBack : Obligations.RegisterWriteIsReadBack := by
  intro r v s
  exact ⟨writeReg r v s, rfl, readReg_writeReg_same s r v,
    ⟨fun q hq => readReg_writeReg_ne (fun e => hq (List.mem_singleton.mpr e)) v s, writeReg_entry13 s r v⟩,
    rfl, ⟨rfl, rfl, rfl, rfl, rfl⟩, ⟨rfl, rfl, rfl⟩, rfl, rfl⟩

/-! ### Changing entry 13 commutes with every operation on the state

Each lemma moves `withEntry13` outwards, so that `simp` brings both sides of a commutation to one form. -/

variable (v : Byte) (s : State)

@[simp] theorem withEntry13_stack : (withEntry13 v s).stack = s.stack := rfl
@[simp] theorem withEntry13_code : (withEntry13 v s).code = s.code := rfl
@[simp] theorem withEntry13_status : (withEntry13 v s).status = s.status := rfl

@[simp] theorem readReg_withEntry13 (r : Reg) : readReg r (withEntry13 v s) = readReg r s := by
  have hlt := reg_id_lt r
  have hne : 13 ≠ r.id := by omega
  simp [readReg, withEntry13, hne]

@[simp] theorem writeReg_withEntry13 (r : Reg) (x : Byte) :
    writeReg r x (withEntry13 v s) = withEntry13 v (writeReg r x s) := by
  have hlt := reg_id_lt r
  have hne : 13 ≠ r.id := by omega
  simp [writeReg, withEntry13, Vector.set_comm _ _ hne]

@[simp] theorem setStack_withEntry13 (st : List Byte) :
    setStack st (withEntry13 v s) = withEntry13 v (setStack st s) := rfl

@[simp] theorem raise_withEntry13 (k : FaultKind) : raise k (withEntry13 v s) = withEntry13 v (raise k s) := by
  simp only [raise, readReg_withEntry13]; rfl

@[simp] theorem takeFault_withEntry13 (k : FaultKind) :
    takeFault k (withEntry13 v s) = onNext (withEntry13 v) (takeFault k s) := by
  simp only [takeFault, raise_withEntry13, onNext]

@[simp] theorem takeLine_withEntry13 : takeLine (withEntry13 v s) = withEntry13 v (takeLine s) := rfl
@[simp] theorem takeReply_withEntry13 : takeReply (withEntry13 v s) = withEntry13 v (takeReply s) := rfl
@[simp] theorem lineAnswer_withEntry13 : lineAnswer (withEntry13 v s) = lineAnswer s := rfl
@[simp] theorem printReply_withEntry13 : printReply (withEntry13 v s) = printReply s := rfl
@[simp] theorem stackRead_withEntry13 (i : Byte) : stackRead i (withEntry13 v s) = stackRead i s := rfl
@[simp] theorem acceptOutput_withEntry13 (bytes : List Byte) :
    acceptOutput bytes (withEntry13 v s) = withEntry13 v (acceptOutput bytes s) := rfl

@[simp] theorem conditionHolds_withEntry13 : conditionHolds (withEntry13 v s) = conditionHolds s := by
  simp only [conditionHolds, readReg_withEntry13]

/-! ### The stack controller and the multi-element instructions -/

theorem pushChecked_withEntry13 (x : Byte) :
    pushChecked x (withEntry13 v s) = (pushChecked x s).map (withEntry13 v) := by
  have hroom : roomFor 1 (withEntry13 v s) ↔ roomFor 1 s := by simp [roomFor]
  rcases pushChecked_cases x s with ⟨h, e⟩ | ⟨h, e⟩ <;>
    rcases pushChecked_cases x (withEntry13 v s) with ⟨h', e'⟩ | ⟨h', e'⟩
  · rw [e, e']; simp [Except.map]
  · exact absurd (hroom.mpr h) h'
  · exact absurd (hroom.mp h') h
  · rw [e, e']; rfl

theorem popChecked_withEntry13 :
    popChecked (withEntry13 v s) = (popChecked s).map (Prod.map id (withEntry13 v)) := by
  unfold popChecked
  simp only [withEntry13_stack, readReg_withEntry13, setStack_withEntry13, writeReg_withEntry13]
  cases s.stack.getLast? with
  | none => rfl
  | some x => dsimp only; split <;> rfl

/-- The result of a multi-element instruction with its state changed by `f`. -/
def ElementsResult.mapState (f : State → State) : ElementsResult → ElementsResult
  | .done s => .done (f s)
  | .raised k n s => .raised k n (f s)

theorem pushEach_withEntry13 {α : Type} {value : α → State → Byte}
    (hvalue : ∀ a u, value a (withEntry13 v u) = value a u) :
    ∀ (l : List α) (n : Nat) (s : State),
      pushEach value l n (withEntry13 v s) = (pushEach value l n s).mapState (withEntry13 v)
  | [], _, _ => rfl
  | a :: rest, n, s => by
    simp only [pushEach, hvalue, pushChecked_withEntry13]
    cases pushChecked (value a s) s with
    | error k => rfl
    | ok u => exact pushEach_withEntry13 hvalue rest (n + 1) u

theorem popEach_withEntry13 : ∀ (l : List Reg) (n : Nat) (s : State),
    popEach l n (withEntry13 v s) = (popEach l n s).mapState (withEntry13 v)
  | [], _, _ => rfl
  | r :: rest, n, s => by
    simp only [popEach, popChecked_withEntry13]
    cases popChecked s with
    | error k => rfl
    | ok p =>
      simp only [Except.map, Prod.map, id, writeReg_withEntry13]
      exact popEach_withEntry13 rest (n + 1) _

theorem writeFree_withEntry13 (n : Nat) : ∀ (l : List Reg) (s : State),
    writeFree n l (withEntry13 v s) = withEntry13 v (writeFree n l s)
  | [], _ => rfl
  | r :: rest, s => by
    simp only [writeFree, writeReg_withEntry13]
    exact writeFree_withEntry13 n rest _

theorem drawPartial_withEntry13 (range : List Reg) :
    drawPartial range (withEntry13 v s) = withEntry13 v (drawPartial range s) :=
  writeFree_withEntry13 v s.draws (.rd :: range) (setStack (Config.freeStack s.draws) { s with draws := s.draws + 1 })

@[simp] theorem raisePartial_withEntry13 (k : FaultKind) (range : List Reg) (n : Nat) :
    raisePartial k range n (withEntry13 v s) = withEntry13 v (raisePartial k range n s) := by
  simp only [raisePartial, raise_withEntry13, settlePartial]
  split
  · rfl
  · split
    · rfl
    · exact drawPartial_withEntry13 v _ range

/-! ### The meanings and the step -/

theorem withTarget_withEntry13 (t : Nibble) {body body' : Reg → Result}
    (h : ∀ rt, body' rt = onNext (withEntry13 v) (body rt)) :
    withTarget t (withEntry13 v s) body' = onNext (withEntry13 v) (withTarget t s body) := by
  unfold withTarget
  split
  · exact takeFault_withEntry13 v s _
  · exact h _

theorem withOperands_withEntry13 (t : Nibble) (f : Byte) {body body' : Reg → Reg → Result}
    (h : ∀ rt rv, body' rt rv = onNext (withEntry13 v) (body rt rv)) :
    withOperands t f (withEntry13 v s) body' = onNext (withEntry13 v) (withOperands t f s body) := by
  refine withTarget_withEntry13 v s t fun rt => ?_
  split
  · exact takeFault_withEntry13 v s _
  · exact h rt _

theorem checkedOp_withEntry13 (op : Nat → Nat → Option Nat) (t : Nibble) (f : Byte) :
    checkedOp op t f (withEntry13 v s) = onNext (withEntry13 v) (checkedOp op t f s) := by
  refine withOperands_withEntry13 v s t f fun rt rv => ?_
  simp only [readReg_withEntry13, storeChecked, takeFault_withEntry13, writeReg_withEntry13]
  split
  · rfl
  · split <;> rfl

theorem combine_withEntry13 (op : Byte → Byte → Byte) (t : Nibble) (f : Byte) :
    combine op t f (withEntry13 v s) = onNext (withEntry13 v) (combine op t f s) := by
  refine withOperands_withEntry13 v s t f fun rt rv => ?_
  simp only [readReg_withEntry13, writeReg_withEntry13, onNext]

theorem finishRange_withEntry13 (range : List Reg) (res : ElementsResult) :
    finishRange range (res.mapState (withEntry13 v)) = onNext (withEntry13 v) (finishRange range res) := by
  cases res with
  | done u => rfl
  | raised k n u => simp only [ElementsResult.mapState, finishRange, raisePartial_withEntry13, onNext]

theorem printLine_withEntry13 : printLine (withEntry13 v s) = onNext (withEntry13 v) (printLine s) := by
  simp only [printLine, printReply_withEntry13, withEntry13_stack, readReg_withEntry13, takeReply_withEntry13,
    takeFault_withEntry13, acceptOutput_withEntry13]
  cases printReply s <;> rfl

theorem readLine_withEntry13 : readLine (withEntry13 v s) = onNext (withEntry13 v) (readLine s) := by
  simp only [readLine, lineAnswer_withEntry13, readReg_withEntry13, takeLine_withEntry13, takeFault_withEntry13]
  cases lineAnswer s with
  | silent => rfl
  | ioError => rfl
  | line bytes =>
    dsimp only
    rw [pushEach_withEntry13 v fun _ _ => rfl]
    cases pushEach (fun b _ => b) (bytes.take (min (readReg .r0 s).toNat bytes.length)) 0 (takeLine s) with
    | done u => simp only [ElementsResult.mapState, writeReg_withEntry13, onNext]
    | raised k n u => simp only [ElementsResult.mapState, raisePartial_withEntry13, onNext]

theorem execInt_withEntry13 (t : Nibble) (f : Byte) :
    execInt t f (withEntry13 v s) = onNext (withEntry13 v) (execInt t f s) := by
  simp only [execInt, haltRun, readReg_withEntry13, takeFault_withEntry13, printLine_withEntry13,
    readLine_withEntry13, apply_ite (onNext (withEntry13 v))]

/-- No instruction reads or writes entry 13 (R22). -/
theorem exec_withEntry13 (i : Instr) : exec i (withEntry13 v s) = onNext (withEntry13 v) (exec i s) := by
  cases i with
  | int t f => exact execInt_withEntry13 v s t f
  | set t m => exact withTarget_withEntry13 v s t fun rt => by rw [writeReg_withEntry13]; rfl
  | psh t f =>
    refine withOperands_withEntry13 v s t f fun rt rv => ?_
    rw [pushEach_withEntry13 v fun r u => readReg_withEntry13 v u r, finishRange_withEntry13]
  | pop t f =>
    refine withOperands_withEntry13 v s t f fun rt rv => ?_
    rw [popEach_withEntry13, finishRange_withEntry13]
  | add t f => exact checkedOp_withEntry13 v s exactAdd t f
  | sub t f => exact checkedOp_withEntry13 v s exactSub t f
  | mul t f => exact checkedOp_withEntry13 v s exactMul t f
  | div t f => exact checkedOp_withEntry13 v s exactDiv t f
  | chk t f =>
    refine withOperands_withEntry13 v s t f fun rt rv => ?_
    simp only [readReg_withEntry13, writeReg_withEntry13, onNext]
  | cns t f =>
    refine withOperands_withEntry13 v s t f fun rt rv => ?_
    simp only [conditionHolds_withEntry13, readReg_withEntry13, writeReg_withEntry13]
    split <;> rfl
  | lpt t f =>
    refine withOperands_withEntry13 v s t f fun rt rv => ?_
    simp only [readReg_withEntry13, stackRead_withEntry13, writeReg_withEntry13, takeFault_withEntry13]
    split <;> rfl
  | lsh t f => exact combine_withEntry13 v s (fun a b => shiftLeftBy a (shiftAmount b)) t f
  | rsh t f => exact combine_withEntry13 v s (fun a b => shiftRightBy a (shiftAmount b)) t f
  | and t f => exact combine_withEntry13 v s (· &&& ·) t f
  | bor t f => exact combine_withEntry13 v s (· ||| ·) t f
  | xor t f => exact combine_withEntry13 v s (· ^^^ ·) t f

theorem fetch_withEntry13 : fetch (withEntry13 v s) = (fetch s).map (Prod.map id (withEntry13 v)) := by
  simp only [fetch, withEntry13_code, readReg_withEntry13, writeReg_withEntry13]
  cases s.code[(readReg .rn s).toNat]? with
  | none => rfl
  | some w =>
    dsimp only
    split
    · split <;> rfl
    · rfl

theorem retire_withEntry13 (w : Word) (out : Result) :
    retire w (onNext (withEntry13 v) out) = onNext (withEntry13 v) (retire w out) := by
  cases out with
  | next u =>
    have hstatus := withEntry13_status v u
    by_cases hrun : u.status = .running
    · simp only [onNext, retire, if_pos hrun, if_pos (hstatus.trans hrun)]; rfl
    · simp only [onNext, retire, if_neg hrun, if_neg fun h => hrun (hstatus.symm.trans h)]
  | fault _ => rfl
  | refused _ => rfl

/-- Settles O8: fetch, the instruction and the end of the step each commute with the change of entry 13. -/
theorem entryThirteenIsUnobservable : Obligations.EntryThirteenIsUnobservable := by
  intro v s
  simp only [step, withEntry13_status, fetch_withEntry13]
  split
  · cases fetch s with
    | error k => exact takeFault_withEntry13 v s k
    | ok p =>
      simp only [Except.map, Prod.map, id, exec_withEntry13, retire_withEntry13]
  · rfl

end Sys2Proof.Machine
end

section
/-! Settled obligations of the family 20_memory.md: the stored image of a bytecode and the stack controller. -/

namespace Sys2Proof.Machine

/-! ### The stored image (R48) -/

/-- The two stored bytes of a word make the word again. -/
theorem wordOfBytes_extractLsb' (w : Word) : wordOfBytes (w.extractLsb' 8 8) (w.extractLsb' 0 8) = w := by
  refine BitVec.eq_of_getLsbD_eq fun i hi => ?_
  simp only [wordOfBytes, BitVec.getLsbD_or, BitVec.getLsbD_shiftLeft, BitVec.getLsbD_setWidth,
    BitVec.getLsbD_extractLsb']
  by_cases hlow : i < 8
  · simp [hlow, hi]
  · have hhigh : i - 8 < 8 := by omega
    have hsplit : 8 + (i - 8) = i := by omega
    have hpos : i - 8 < 16 := by omega
    simp [hlow, hi, hhigh, hpos, hsplit]

theorem bytesOfBytecode_cons (w : Word) (ws : List Word) :
    bytesOfBytecode (w :: ws) = w.extractLsb' 8 8 :: w.extractLsb' 0 8 :: bytesOfBytecode ws := rfl

/-- Reading a stored image gives the bytecode back. -/
theorem bytecodeOfBytes_bytesOfBytecode (ws : List Word) : bytecodeOfBytes (bytesOfBytecode ws) = .ok ws := by
  induction ws with
  | nil => rfl
  | cons w ws ih => rw [bytesOfBytecode_cons, bytecodeOfBytes, ih, wordOfBytes_extractLsb']; rfl

/-- Word `k` stands at offsets `2k` and `2k + 1`, most significant byte first. -/
theorem bytesOfBytecode_getElem? (ws : List Word) (k : Nat) :
    (bytesOfBytecode ws)[2 * k]? = ws[k]?.map (fun w => w.extractLsb' 8 8) ∧
    (bytesOfBytecode ws)[2 * k + 1]? = ws[k]?.map (fun w => w.extractLsb' 0 8) := by
  induction ws generalizing k with
  | nil => exact ⟨rfl, rfl⟩
  | cons w ws ih =>
    rw [bytesOfBytecode_cons]
    cases k with
    | zero => exact ⟨rfl, rfl⟩
    | succ k => exact ih k

/-- Settles O4: the byte layout and the read-back, each by induction on the bytecode. -/
theorem storedImageIsBigEndian : Obligations.StoredImageIsBigEndian :=
  fun ws => ⟨bytecodeOfBytes_bytesOfBytecode ws, bytesOfBytecode_getElem? ws⟩

/-! ### The stack controller (R58, R59) -/

/-- A change of RD and the stack leaves every other register and every other part of the state. -/
theorem writeRd_setStack_frame (x : Byte) (st : List Byte) (s : State) :
    regsSameExcept [.rd] s (writeReg .rd x (setStack st s)) ∧ restSame s (writeReg .rd x (setStack st s)) :=
  ⟨⟨fun _ hq => readReg_writeReg_ne (List.ne_of_not_mem_cons hq) x _, writeReg_entry13 ..⟩,
    ⟨rfl, rfl, rfl, rfl, rfl⟩, ⟨rfl, rfl, rfl⟩, rfl, rfl⟩

theorem roomFor_one_iff (s : State) :
    roomFor 1 s ↔ (readReg .rd s).toNat + 1 ≤ 255 ∧
      ∀ c, Config.stackCapacity = some c → s.stack.length ≠ c.size := by
  simp [roomFor]

theorem pushChecked_of_room {s : State} (h : roomFor 1 s) (v : Byte) :
    pushChecked v s = .ok (writeReg .rd (readReg .rd s + 1) (setStack (s.stack ++ [v]) s)) := by
  rcases pushChecked_cases v s with ⟨_, e⟩ | ⟨hno, _⟩
  · exact e
  · exact absurd h hno

theorem pushChecked_of_no_room {s : State} (h : ¬ roomFor 1 s) (v : Byte) :
    pushChecked v s = .error .stackOverflow := by
  rcases pushChecked_cases v s with ⟨hroom, _⟩ | ⟨_, e⟩
  · exact absurd hroom h
  · exact e

/-- Settles O9: a push succeeds exactly where there is room for one, and no room is RD at 255 or a full stack. -/
theorem pushCheckedAppends : Obligations.PushCheckedAppends := by
  refine fun v s => ⟨fun hrd => ?_, fun c hc hfull => ?_, fun hrd hcap => ?_⟩
  · exact pushChecked_of_no_room (fun h => by have := h.1; omega) v
  · exact pushChecked_of_no_room (fun h => ((roomFor_one_iff s).mp h).2 c hc hfull) v
  · obtain ⟨hregs, hrest⟩ := writeRd_setStack_frame (readReg .rd s + 1) (s.stack ++ [v]) s
    refine ⟨_, pushChecked_of_room ((roomFor_one_iff s).mpr ⟨hrd, hcap⟩) v, rfl, ?_, hregs, hrest⟩
    rw [readReg_writeReg_same]
    exact BitVec.toNat_add_of_lt (by simp; omega)

theorem popChecked_of_underflow {s : State} (h : s.stack = [] ∨ readReg .rd s = 0) :
    popChecked s = .error popUnderflowKind := by
  rcases popChecked_cases s with ⟨st, v, hst, h0, _⟩ | ⟨_, e⟩
  · exact absurd (h.resolve_left (by simp [hst])) h0
  · exact e

theorem popChecked_of_tail {s : State} {st : List Byte} {v : Byte} (hst : s.stack = st ++ [v])
    (h0 : readReg .rd s ≠ 0) :
    popChecked s = .ok (v, writeReg .rd (readReg .rd s - 1) (setStack st s)) := by
  rcases popChecked_cases s with ⟨st', v', hst', _, e⟩ | ⟨hunder, _⟩
  · obtain ⟨rfl, hv⟩ := List.append_inj' (hst.symm.trans hst') rfl
    cases hv
    exact e
  · exact absurd (hunder.resolve_left (by simp [hst])) h0

/-- Settles O10: a pop succeeds exactly where the stack has a tail and RD is not 0. -/
theorem popCheckedRemovesTail : Obligations.PopCheckedRemovesTail := by
  refine ⟨rfl, fun s => ⟨fun h => popChecked_of_underflow (.inl h), fun h => popChecked_of_underflow (.inr h),
    fun st v hst h0 => ?_⟩⟩
  obtain ⟨hregs, hrest⟩ := writeRd_setStack_frame (readReg .rd s - 1) st s
  refine ⟨_, popChecked_of_tail hst h0, rfl, ?_, hregs, hrest⟩
  have hpos := toNat_ne_zero h0
  have hle : (1 : Byte) ≤ readReg .rd s := by rw [BitVec.le_def]; simp; omega
  rw [readReg_writeReg_same, BitVec.toNat_sub_of_le hle]
  exact Nat.sub_add_cancel (BitVec.le_def.mp hle)

end Sys2Proof.Machine
end

section
/-! Settled obligations of the family 30_encoding.md: the fields of a word, decoding and encoding. -/

namespace Sys2Proof

/-! ### Opcodes and fields (R65, R66, R71) -/

@[simp] theorem Opcode.ofBits_bits (o : Opcode) : Opcode.ofBits o.bits = o := by cases o <;> rfl

@[simp] theorem Opcode.bits_ofBits (b : Nibble) : (Opcode.ofBits b).bits = b := by revert b; decide

@[simp] theorem Instr.opcode_ofFields (o : Opcode) (t : Nibble) (v : Byte) : (Instr.ofFields o t v).opcode = o := by
  cases o <;> rfl

@[simp] theorem Instr.target_ofFields (o : Opcode) (t : Nibble) (v : Byte) : (Instr.ofFields o t v).target = t := by
  cases o <;> rfl

@[simp] theorem Instr.value_ofFields (o : Opcode) (t : Nibble) (v : Byte) : (Instr.ofFields o t v).value = v := by
  cases o <;> rfl

/-- An instruction is its opcode and its two raw fields. -/
@[simp] theorem Instr.ofFields_self (i : Instr) : Instr.ofFields i.opcode i.target i.value = i := by cases i <;> rfl

/-- The fields of R65 cover the word. -/
theorem fields_cover (w : Word) :
    ((opcodeBits w).setWidth 16 <<< 12) ||| ((targetBits w).setWidth 16 <<< 8) ||| (valueBits w).setWidth 16 = w := by
  ext i hi
  interval_cases i <;> simp [opcodeBits, targetBits, valueBits, BitVec.getLsbD_eq_getElem]

/-! ### Decoding and encoding (R75) -/

theorem decodeWord_encodeFields (o : Opcode) (t : Nibble) (v : Byte) :
    decodeWord (encodeFields o t v) = Instr.ofFields o t v := by
  obtain ⟨ho, ht, hv⟩ := Laws.Fields.joined o t v
  rw [decodeWord, ho, ht, hv, Opcode.ofBits_bits]

theorem decodeWord_encode (i : Instr) : decodeWord (encode i) = i := by
  rw [encode, decodeWord_encodeFields, Instr.ofFields_self]

theorem encode_decodeWord (w : Word) : encode (decodeWord w) = w := by
  simp only [encode, decodeWord, encodeFields, Instr.opcode_ofFields, Instr.target_ofFields, Instr.value_ofFields,
    Opcode.bits_ofBits, fields_cover]

/-- A field that fits loses no bit when it is moved to its place in the word. -/
theorem toNat_setWidth_shiftLeft {n k : Nat} (x : BitVec n) (h : n + k ≤ 16) :
    (x.setWidth 16 <<< k).toNat = x.toNat <<< k := by
  have hlt : x.toNat <<< k < 2 ^ 16 := by
    rw [Nat.shiftLeft_eq]
    calc x.toNat * 2 ^ k < 2 ^ n * 2 ^ k := Nat.mul_lt_mul_of_pos_right x.isLt (Nat.two_pow_pos k)
      _ = 2 ^ (n + k) := (Nat.pow_add 2 n k).symm
      _ ≤ 2 ^ 16 := Nat.pow_le_pow_right (by decide) h
  rw [BitVec.toNat_shiftLeft, BitVec.toNat_setWidth_of_le (by omega), Nat.mod_eq_of_lt hlt]

theorem toNat_encodeFields (o : Opcode) (t : Nibble) (v : Byte) :
    (encodeFields o t v).toNat = o.bits.toNat <<< 12 ||| t.toNat <<< 8 ||| v.toNat := by
  rw [encodeFields, BitVec.toNat_or, BitVec.toNat_or, toNat_setWidth_shiftLeft _ (by decide),
    toNat_setWidth_shiftLeft _ (by decide), BitVec.toNat_setWidth_of_le (by decide)]

/-! ### Legal fields (R67, R68, R70) -/

theorem Opcode.decodesTarget_iff (o : Opcode) : o.decodesTarget = true ↔ o ≠ .int := by cases o <;> decide

theorem Opcode.decodesValue_iff (o : Opcode) : o.decodesValue = true ↔ o ≠ .int ∧ o ≠ .set := by
  cases o <;> decide

theorem Instr.targetOk_eq_false_iff (i : Instr) : i.targetOk = false ↔ i.opcode ≠ .int ∧ 12 < i.target.toNat := by
  rw [Instr.targetOk, Bool.or_eq_false_iff, Bool.not_eq_false', Opcode.decodesTarget_iff,
    Machine.reg_ofId_isSome_false]

theorem Instr.valueOk_eq_false_iff (i : Instr) :
    i.valueOk = false ↔ i.opcode ≠ .int ∧ i.opcode ≠ .set ∧ 12 < i.value.toNat := by
  rw [Instr.valueOk, Bool.or_eq_false_iff, Bool.not_eq_false', Opcode.decodesValue_iff,
    Machine.reg_ofId_isSome_false, and_assoc]

theorem Instr.target_le_of_targetOk {i : Instr} (h : i.targetOk = true) (hd : i.opcode.decodesTarget = true) :
    i.target.toNat ≤ 12 := by
  rw [Instr.targetOk, hd, Bool.not_true, Bool.false_or] at h
  exact (Machine.reg_ofId_isSome_true _).mp h

theorem Instr.value_le_of_valueOk {i : Instr} (h : i.valueOk = true) (hd : i.opcode.decodesValue = true) :
    i.value.toNat ≤ 12 := by
  rw [Instr.valueOk, hd, Bool.not_true, Bool.false_or] at h
  exact (Machine.reg_ofId_isSome_true _).mp h

theorem Instr.wellFormed_ofFields {o : Opcode} {t : Nibble} {v : Byte} (ht : o ≠ .int → t.toNat ≤ 12)
    (hv : o ≠ .int → o ≠ .set → v.toNat ≤ 12) : (Instr.ofFields o t v).wellFormed = true := by
  have htarget : ¬ (Instr.ofFields o t v).targetOk = false := by
    rw [Instr.targetOk_eq_false_iff, Instr.opcode_ofFields, Instr.target_ofFields]
    exact fun ⟨hi, hbad⟩ => absurd (ht hi) (by omega)
  have hvalue : ¬ (Instr.ofFields o t v).valueOk = false := by
    rw [Instr.valueOk_eq_false_iff, Instr.opcode_ofFields, Instr.value_ofFields]
    exact fun ⟨hi, hset, hbad⟩ => absurd (hv hi hset) (by omega)
  rw [Instr.wellFormed, Bool.eq_true_of_not_eq_false htarget, Bool.eq_true_of_not_eq_false hvalue, Bool.and_self]

end Sys2Proof

namespace Sys2Proof.Machine

/-! ### Invalid fields fault when the instruction executes (R67, R68, R70) -/

/-- Every opcode but `int` decodes its target first. -/
theorem exec_eq_withTarget {i : Instr} (hi : i.opcode ≠ .int) (s : State) :
    ∃ body, exec i s = withTarget i.target s body := by
  cases i with
  | int t v => exact absurd rfl hi
  | _ t v => exact ⟨_, rfl⟩

/-- Every opcode but `int` and `set` decodes both fields as registers. -/
theorem exec_eq_withOperands {i : Instr} (hi : i.opcode ≠ .int) (hset : i.opcode ≠ .set) (s : State) :
    ∃ body, exec i s = withOperands i.target i.value s body := by
  cases i with
  | int t v => exact absurd rfl hi
  | set t v => exact absurd rfl hset
  | _ t v => exact ⟨_, rfl⟩

theorem exec_of_targetOk_false {i : Instr} (h : i.targetOk = false) (s : State) :
    exec i s = .next (raise .invalidTarget s) := by
  obtain ⟨hi, hbad⟩ := i.targetOk_eq_false_iff.mp h
  obtain ⟨body, e⟩ := exec_eq_withTarget hi s
  rcases withTarget_cases i.target s body with ⟨_, e'⟩ | ⟨rt, ht, _⟩
  · exact e.trans e'
  · have := reg_id_lt rt; omega

theorem exec_of_valueOk_false {i : Instr} (ht : i.targetOk = true) (hv : i.valueOk = false) (s : State) :
    exec i s = .next (raise valueRegKind s) := by
  obtain ⟨hi, hset, hbad⟩ := i.valueOk_eq_false_iff.mp hv
  obtain ⟨body, e⟩ := exec_eq_withOperands hi hset s
  have htarget := Instr.target_le_of_targetOk ht (i.opcode.decodesTarget_iff.mpr hi)
  exact e.trans (withOperands_badValue htarget hbad s body)

/-- An instruction with an invalid field raises one of the two decode faults of R73. -/
theorem exec_of_not_wellFormed {i : Instr} (h : i.wellFormed = false) (s : State) :
    ∃ k, (k = .invalidTarget ∨ k = valueRegKind) ∧ exec i s = .next (raise k s) := by
  cases ht : i.targetOk with
  | false => exact ⟨_, .inl rfl, exec_of_targetOk_false ht s⟩
  | true =>
    have hv : i.valueOk = false := by simpa [Instr.wellFormed, ht] using h
    exact ⟨_, .inr rfl, exec_of_valueOk_false ht hv s⟩

/-- Settles O1: the three fields are found again where R75's formula puts them, and together they cover the word. -/
theorem decodeEncodeRoundTrip : Obligations.DecodeEncodeRoundTrip :=
  ⟨decodeWord_encode, encode_decodeWord, fun i => toNat_encodeFields i.opcode i.target i.value,
    fun _ s h => exec_of_not_wellFormed h s, by decide⟩

/-! ### Valid fields raise no decode fault -/

/-- The answer is no state with a record of InvalidTarget or InvalidValue. -/
def noDecodeFault (out : Result) : Prop :=
  ∀ u f, out = .next u → u.fault = some f → f.kind ≠ .invalidTarget ∧ f.kind ≠ .invalidValue

theorem noDecodeFault_of_fault_none {u : State} (h : u.fault = none) : noDecodeFault (.next u) := by
  intro _ f e hf
  cases e
  rw [h] at hf
  cases hf

theorem noDecodeFault_raisePartial {k : FaultKind} (hk : k ≠ .invalidTarget ∧ k ≠ .invalidValue) (range : List Reg)
    (n : Nat) (s : State) : noDecodeFault (.next (raisePartial k range n s)) := by
  intro _ f e hf
  cases e
  rw [raisePartial_fault] at hf
  cases hf
  exact hk

theorem noDecodeFault_takeFault {k : FaultKind} (hk : k ≠ .invalidTarget ∧ k ≠ .invalidValue) (s : State) :
    noDecodeFault (takeFault k s) := noDecodeFault_raisePartial hk [] 0 s

theorem noDecodeFault_withOperands {t : Nibble} {v : Byte} (ht : t.toNat ≤ 12) (hv : v.toNat ≤ 12) {s : State}
    {body : Reg → Reg → Result} (hbody : ∀ rt rv, noDecodeFault (body rt rv)) :
    noDecodeFault (withOperands t v s body) := by
  rcases withOperands_cases t v s body with ⟨h, _⟩ | ⟨_, h, _⟩ | ⟨rt, rv, _, _, e⟩
  · omega
  · omega
  · rw [e]; exact hbody rt rv

theorem noDecodeFault_storeChecked (t : Reg) (result : Option Nat) {s : State} (hs : s.fault = none) :
    noDecodeFault (storeChecked t result s) := by
  unfold storeChecked
  split
  · exact noDecodeFault_takeFault (by decide) s
  · split
    · exact noDecodeFault_takeFault (by decide) s
    · exact noDecodeFault_of_fault_none hs

/-- A run of pushes or pops that keeps the run going, and whose own fault is no decode fault, ends in none. -/
theorem noDecodeFault_finishRange {s : State} (hs : s.fault = none) (range : List Reg) {res : ElementsResult}
    (hres : resultHolds (runKept s) res)
    (hkind : ∀ k n u, res = .raised k n u → k ≠ .invalidTarget ∧ k ≠ .invalidValue) :
    noDecodeFault (finishRange range res) := by
  cases res with
  | done u => exact noDecodeFault_of_fault_none (hres.2.2.1.trans hs)
  | raised k n u => exact noDecodeFault_raisePartial (hkind k n u rfl) range n u

/-- An instruction raises only kinds of its opcode (R220). -/
theorem exec_fault_kind {i : Instr} {s u : State} {f : FaultRecord} (hs : s.fault = none) (h : exec i s = .next u)
    (hf : u.fault = some f) : f.kind ∈ executeKinds i.opcode := by
  rcases exec_next_cases h with ⟨_, _, hkept, _⟩ | ⟨k, range, n, v, hk, _, rfl, _⟩
  · rw [hkept, hs] at hf; cases hf
  · rw [raisePartial_fault] at hf; cases hf; exact hk

/-- With both fields decoded to registers, what remains of each rule raises no decode fault. -/
theorem exec_noDecodeFault {i : Instr} {s : State} (ht : i.targetOk = true) (hv : i.valueOk = true)
    (hs : s.fault = none) : noDecodeFault (exec i s) := by
  have hoperands : i.opcode.decodesTarget = true → i.opcode.decodesValue = true → ∀ {body : Reg → Reg → Result},
      (∀ rt rv, noDecodeFault (body rt rv)) → noDecodeFault (withOperands i.target i.value s body) :=
    fun hdt hdv => noDecodeFault_withOperands (Instr.target_le_of_targetOk ht hdt) (Instr.value_le_of_valueOk hv hdv)
  have hwrite : ∀ r x, noDecodeFault (.next (writeReg r x s)) := fun _ _ => noDecodeFault_of_fault_none hs
  cases i with
  | int t v =>
    intro u f h hf
    have hk : f.kind ∈ executeKinds .int := exec_fault_kind hs h hf
    constructor <;> intro e <;> rw [e] at hk <;> revert hk <;> decide
  | set t m =>
    have hle : t.toNat ≤ 12 := Instr.target_le_of_targetOk ht rfl
    rcases withTarget_cases t s (fun r => .next (writeReg r m s)) with ⟨h, _⟩ | ⟨r, _, e⟩
    · omega
    · intro u f h
      exact hwrite r m u f (e.symm.trans h)
  | psh t v =>
    refine hoperands rfl rfl fun rt rv =>
      noDecodeFault_finishRange hs _ (pushEach_runKept readReg _ 0 s) fun k n u e => ?_
    rw [pushEach_kind _ _ _ _ e]
    decide
  | pop t v =>
    refine hoperands rfl rfl fun rt rv =>
      noDecodeFault_finishRange hs _ (popEach_runKept _ 0 s) fun k n u e => ?_
    rw [popEach_kind _ _ _ e]
    rcases popUnderflowKind_cases with h | h <;> rw [h] <;> decide
  | add t v | sub t v | mul t v | div t v =>
    exact hoperands rfl rfl fun rt rv => noDecodeFault_storeChecked rt _ hs
  | cns t v =>
    refine hoperands rfl rfl fun rt rv => ?_
    split
    · exact hwrite _ _
    · exact noDecodeFault_of_fault_none hs
  | lpt t v =>
    refine hoperands rfl rfl fun rt rv => ?_
    rcases stackRead_cases (readReg rv s) s with ⟨_, e⟩ | ⟨_, e⟩ <;> simp only [e]
    · exact hwrite _ _
    · exact noDecodeFault_takeFault (by decide) s
  | chk t v | lsh t v | rsh t v | and t v | bor t v | xor t v =>
    exact hoperands rfl rfl fun rt rv => hwrite _ _

/-- Settles O5: the checks come first, in the order target, value, and no rule raises a decode fault after them. -/
theorem invalidFieldsFault : Obligations.InvalidFieldsFault := fun i s =>
  ⟨fun ht => exec_of_targetOk_false ht s, fun ht hv => exec_of_valueOk_false ht hv s,
    fun ht hv hs u f => exec_noDecodeFault ht hv hs u f, i.targetOk_eq_false_iff, i.valueOk_eq_false_iff, rfl⟩

/-! ### Every opcode is assigned (R71, R72) -/

theorem invalidOpcode_not_mem_executeKinds (o : Opcode) : .invalidOpcode ∉ executeKinds o := by
  have hvalue : .invalidOpcode ≠ valueRegKind := by rcases valueRegKind_cases with h | h <;> rw [h] <;> decide
  have hpop : .invalidOpcode ≠ popUnderflowKind := by rcases popUnderflowKind_cases with h | h <;> rw [h] <;> decide
  cases o <;> simp [executeKinds, hvalue, hpop]

/-- Settles O21: fetch has two other kinds, and no opcode's list of kinds holds InvalidOpcode. -/
theorem invalidOpcodeNeverRaised : Obligations.InvalidOpcodeNeverRaised := by
  intro s t ip hs h hf
  have hrun := running_of_step_next h
  have hnone : s.fault = none := by simpa only [recordAgrees, hrun] using hs
  rcases step_cases hrun h with ⟨k, hk, _, rfl⟩ | ⟨w, x, u, _, _, hu, ht⟩
  · rw [raise_fault] at hf
    cases hf
    rcases hk with hk | hk <;> cases hk
  · have huf : u.fault = some ⟨.invalidOpcode, ip⟩ := by
      rcases ht with ⟨_, rfl⟩ | ⟨_, rfl⟩ <;> exact hf
    exact invalidOpcode_not_mem_executeKinds _ (exec_fault_kind (s := writeReg .rn x s) hnone hu huf)

/-- A word with the opcode value `b` decodes to the instruction that `b` selects. -/
theorem encodedBy_ofBits (b : Nibble) : encodedBy b (Instr.ofFields (Opcode.ofBits b)) := by
  rintro w rfl
  rfl

/-- Settles O2: the selection by the opcode value, at each of its sixteen values. -/
theorem opcodeMapSelectsInstruction : Obligations.OpcodeMapSelectsInstruction :=
  ⟨encodedBy_ofBits 0x0, encodedBy_ofBits 0x1, encodedBy_ofBits 0x2, encodedBy_ofBits 0x3,
    encodedBy_ofBits 0x4, encodedBy_ofBits 0x5, encodedBy_ofBits 0x6, encodedBy_ofBits 0x7,
    encodedBy_ofBits 0x8, encodedBy_ofBits 0x9, encodedBy_ofBits 0xA, encodedBy_ofBits 0xB,
    encodedBy_ofBits 0xC, encodedBy_ofBits 0xD, encodedBy_ofBits 0xE, encodedBy_ofBits 0xF⟩

/-- Settles O3: each word is a closed case of decoding. -/
theorem writtenWordsDecode : Obligations.WrittenWordsDecode := by
  unfold Obligations.WrittenWordsDecode
  decide

end Sys2Proof.Machine
end

section
/-! Settled obligations of the family 30_encoding.md: the assembler (R80 to R87). -/

namespace Sys2Proof.Machine

/-! ### Tokens (R82) -/

theorem cutAt_of_not_mem {c : Char} {l : Text} (h : c ∉ l) : cutAt c l = [l] := by
  induction l with
  | nil => rfl
  | cons a rest ih =>
    rw [List.mem_cons, not_or] at h
    rw [cutAt, if_neg (Ne.symm h.1), ih h.2]

/-- The first cut is at the first occurrence of the character. -/
theorem cutAt_append_cons {c : Char} {l : Text} (h : c ∉ l) (rest : Text) :
    cutAt c (l ++ c :: rest) = l :: cutAt c rest := by
  induction l with
  | nil => rw [List.nil_append, cutAt, if_pos rfl]
  | cons a l ih =>
    rw [List.mem_cons, not_or] at h
    rw [List.cons_append, cutAt, if_neg (Ne.symm h.1), ih h.2]

/-! ### Mnemonics and register names (R83, R84) -/

theorem opcodeOfText_mnemonicText (o : Opcode) : opcodeOfText (mnemonicText o) = some o := by cases o <;> decide

theorem regOfText_regText (r : Reg) : regOfText (regText r) = some r := by cases r <;> decide

theorem space_not_mem_mnemonicText (o : Opcode) : ' ' ∉ mnemonicText o := by cases o <;> decide

theorem space_not_mem_regText (r : Reg) : ' ' ∉ regText r := by cases r <;> decide

theorem mnemonicText_ne_nil (o : Opcode) : mnemonicText o ≠ [] := by cases o <;> decide

theorem regText_ne_nil (r : Reg) : regText r ≠ [] := by cases r <;> decide

theorem targetField_regText (o : Opcode) (r : Reg) :
    targetField o (some (regText r)) = some (BitVec.ofNat 4 r.id) := by
  rw [targetField, Option.bind_some, regOfText_regText]

theorem valueField_regText (o : Opcode) (r : Reg) :
    valueField o (some (regText r)) = some (BitVec.ofNat 8 r.id) := by
  rw [valueField, Option.bind_some, regOfText_regText]

/-- Settles O56: the line is cut into its three tokens, and each token names what it spells. -/
theorem registerLineAssembles : Obligations.RegisterLineAssembles := by
  intro o rt rv
  have hcut : cutAt ' ' (mnemonicText o ++ ' ' :: (regText rt ++ ' ' :: regText rv)) =
      [mnemonicText o, regText rt, regText rv] := by
    rw [cutAt_append_cons (space_not_mem_mnemonicText o), cutAt_append_cons (space_not_mem_regText rt),
      cutAt_of_not_mem (space_not_mem_regText rv)]
  have hfull : [] ∉ [mnemonicText o, regText rt, regText rv] := by
    simp [(mnemonicText_ne_nil o).symm, (regText_ne_nil _).symm]
  simp [assembleLine, hcut, hfull, opcodeOfText_mnemonicText, targetField_regText, valueField_regText]

/-! ### The fields of an assembled word (R84, R85) -/

/-- A line that assembles has an opcode and two fields found in its tokens. -/
theorem assembleLine_ok {l : Text} {w : Word} (h : assembleLine l = .ok w) :
    ∃ o t v tok tok', targetField o tok = some t ∧ valueField o tok' = some v ∧ w = encodeFields o t v := by
  simp only [assembleLine] at h
  split at h
  · cases h
  · split at h
    · cases h
    · next o _ =>
      split at h
      · cases h
      · next t ht =>
        split at h
        · cases h
        · next v hv =>
          cases h
          exact ⟨o, t, v, _, _, ht, hv, rfl⟩

theorem toNat_ofNat_reg_id_le (n : Nat) (r : Reg) : (BitVec.ofNat n r.id).toNat ≤ 12 := by
  rw [BitVec.toNat_ofNat]
  exact (Nat.mod_le _ _).trans (Nat.le_of_lt_succ (reg_id_lt r))

/-- Only `int` takes a target token that names no register (R84). -/
theorem targetField_le {o : Opcode} {tok : Option Text} {t : Nibble} (h : targetField o tok = some t)
    (ho : o ≠ .int) : t.toNat ≤ 12 := by
  unfold targetField at h
  split at h
  · next r _ =>
    cases h
    exact toNat_ofNat_reg_id_le 4 r
  · rw [if_neg ho] at h; cases h

/-- Only `int` and `set` take a value token that names no register (R85). -/
theorem valueField_le {o : Opcode} {tok : Option Text} {v : Byte} (h : valueField o tok = some v)
    (ho : o ≠ .int) (hset : o ≠ .set) : v.toNat ≤ 12 := by
  unfold valueField at h
  split at h
  · next r _ =>
    cases h
    exact toNat_ofNat_reg_id_le 8 r
  · rw [if_neg ho, if_neg hset] at h; cases h

/-- Settles O57: each field the opcode decodes is the id of the register its token names. -/
theorem assembledWordIsWellFormed : Obligations.AssembledWordIsWellFormed := by
  intro l w h
  obtain ⟨o, t, v, _, _, ht, hv, rfl⟩ := assembleLine_ok h
  rw [decodeWord_encodeFields]
  exact Instr.wellFormed_ofFields (targetField_le ht) (valueField_le hv)

/-! ### Lines and files (R81, R86) -/

/-- Everything the first physical line can do to the assembly of a file. -/
theorem assembleFrom_cons_cases (n : Nat) (l : Text) (rest : List Text) :
    (skipsLine l = true ∧ assembleFrom n (l :: rest) = assembleFrom (n + 1) rest) ∨
    (skipsLine l = false ∧ ∃ k, assembleLine (trimText l) = .error k ∧
      assembleFrom n (l :: rest) = .error ⟨k, n, l⟩) ∨
    (skipsLine l = false ∧ ∃ w, assembleLine (trimText l) = .ok w ∧
      assembleFrom n (l :: rest) = (assembleFrom (n + 1) rest).map (w :: ·)) := by
  rw [assembleFrom]
  cases hs : skipsLine l with
  | true => exact .inl ⟨rfl, rfl⟩
  | false =>
    cases hl : assembleLine (trimText l) with
    | error k => exact .inr (.inl ⟨rfl, k, rfl, rfl⟩)
    | ok w => exact .inr (.inr ⟨rfl, w, rfl, rfl⟩)

/-- A physical line that does not abort the assembly. -/
def lineGoesOn (l : Text) : Prop :=
  skipsLine l = true ∨ ∃ w, assembleLine (trimText l) = .ok w

/-- The words of an assembled file are those of its non-skipped lines, in order. -/
theorem assembleFrom_ok {n : Nat} {lines : List Text} {ws : List Word} (h : assembleFrom n lines = .ok ws) :
    (lines.filter fun l => !skipsLine l).map (fun l => assembleLine (trimText l)) = ws.map .ok := by
  induction lines generalizing n ws with
  | nil => cases h; rfl
  | cons l rest ih =>
    rcases assembleFrom_cons_cases n l rest with ⟨hs, e⟩ | ⟨_, k, _, e⟩ | ⟨hs, w, hl, e⟩ <;> rw [e] at h
    · rw [List.filter_cons_of_neg (by simp [hs])]
      exact ih h
    · cases h
    · cases hrest : assembleFrom (n + 1) rest with
      | error e => rw [hrest] at h; cases h
      | ok ws' =>
        rw [hrest] at h
        cases h
        rw [List.filter_cons_of_pos (by simp [hs]), List.map_cons, List.map_cons, hl, ih hrest]

/-- Line `i` is the first erroring line, and `e` holds its error kind and its raw text. -/
def firstErrorAt (e : AsmError) (lines : List Text) (i : Nat) : Prop :=
  lines[i]? = some e.text ∧ skipsLine e.text = false ∧ assembleLine (trimText e.text) = .error e.kind ∧
  ∀ j l, j < i → lines[j]? = some l → lineGoesOn l

theorem firstErrorAt_cons {e : AsmError} {l : Text} {rest : List Text} {i : Nat} (hl : lineGoesOn l)
    (h : firstErrorAt e rest i) : firstErrorAt e (l :: rest) (i + 1) := by
  obtain ⟨htext, hs, hk, hfirst⟩ := h
  refine ⟨htext, hs, hk, fun j l' hj hl' => ?_⟩
  cases j with
  | zero => cases hl'; exact hl
  | succ j => exact hfirst j l' (by omega) hl'

/-- The error of a file that does not assemble is that of its first erroring line, numbered from `n`. -/
theorem assembleFrom_error {n : Nat} {lines : List Text} {e : AsmError} (h : assembleFrom n lines = .error e) :
    ∃ i, e.line = n + i ∧ firstErrorAt e lines i := by
  induction lines generalizing n with
  | nil => cases h
  | cons l rest ih =>
    have later (hl : lineGoesOn l) (hrest : assembleFrom (n + 1) rest = .error e) :
        ∃ i, e.line = n + i ∧ firstErrorAt e (l :: rest) i := by
      obtain ⟨i, hi, hfirst⟩ := ih hrest
      exact ⟨i + 1, by omega, firstErrorAt_cons hl hfirst⟩
    rcases assembleFrom_cons_cases n l rest with ⟨hs, e'⟩ | ⟨hs, k, hk, e'⟩ | ⟨_, w, hl, e'⟩ <;> rw [e'] at h
    · exact later (.inl hs) h
    · cases h
      exact ⟨0, rfl, rfl, hs, hk, fun j _ hj => absurd hj j.not_lt_zero⟩
    · cases hrest : assembleFrom (n + 1) rest with
      | ok ws => rw [hrest] at h; cases h
      | error e₁ => rw [hrest] at h; cases h; exact later (.inr ⟨w, hl⟩) hrest

/-- Settles O58: both parts by induction on the lines, the first line numbered 0. -/
theorem fileAssemblesLineByLine : Obligations.FileAssemblesLineByLine := by
  refine fun lines => ⟨fun _ h => assembleFrom_ok h, fun e h => ?_⟩
  obtain ⟨i, hi, hfirst⟩ := assembleFrom_error h
  rw [Nat.zero_add] at hi
  rw [hi]
  exact hfirst

end Sys2Proof.Machine
end

section
/-! Settled obligations of the family 40_step.md: fetch, the step and the run loop. -/

namespace Sys2Proof.Machine

/-! ### Fetch (R101, R102) -/

theorem fetch_of_length_le {s : State} (h : s.code.length ≤ (readReg .rn s).toNat) :
    fetch s = .error .fetchInvalid := by
  simp only [fetch, List.getElem?_eq_none h]

theorem fetch_of_ne_last {s : State} {w : Word} (hw : s.code[(readReg .rn s).toNat]? = some w)
    (h : readReg .rn s ≠ 255) : fetch s = .ok (w, writeReg .rn (readReg .rn s + 1) s) := by
  simp only [fetch, hw, if_neg h]

theorem fetch_last_of_target_ne {s : State} {w : Word} (hw : s.code[(readReg .rn s).toNat]? = some w)
    (h : readReg .rn s = 255) (ht : targetBits w ≠ 8) : fetch s = .error .fetchNext := by
  simp only [fetch, hw, if_pos h, if_neg ht]

theorem fetch_last_of_target_eq {s : State} {w : Word} (hw : s.code[(readReg .rn s).toNat]? = some w)
    (h : readReg .rn s = 255) (ht : targetBits w = 8) : fetch s = .ok (w, writeReg .rn overflowedRn s) := by
  simp only [fetch, hw, if_pos h, if_pos ht]

/-- A word whose target field is RN is fetched at every index. -/
theorem fetch_of_target_eq {s : State} {w : Word} (hw : s.code[(readReg .rn s).toNat]? = some w)
    (ht : targetBits w = 8) : ∃ x, fetch s = .ok (w, writeReg .rn x s) := by
  by_cases h : readReg .rn s = 255
  · exact ⟨_, fetch_last_of_target_eq hw h ht⟩
  · exact ⟨_, fetch_of_ne_last hw h⟩

/-- Fetch faults, or it changes RN alone. -/
theorem fetch_error_or_ok (s : State) :
    (∃ k, fetch s = .error k) ∨ ∃ w x, fetch s = .ok (w, writeReg .rn x s) := by
  rcases fetch_cases s with ⟨_, e⟩ | ⟨_, _, _, _, e⟩ | ⟨w, _, _, _, e⟩ | ⟨w, _, _, e⟩
  · exact .inl ⟨_, e⟩
  · exact .inl ⟨_, e⟩
  · exact .inr ⟨w, _, e⟩
  · exact .inr ⟨w, _, e⟩

/-- Below index 255 the advance of RN does not overflow. -/
theorem toNat_advance {b : Byte} (h : b ≠ 255) : (b + 1).toNat = b.toNat + 1 := by
  have hne : b.toNat ≠ 255 := fun e => h (BitVec.eq_of_toNat_eq e)
  have hlt := b.isLt
  exact BitVec.toNat_add_of_lt (by simp; omega)

/-! ### The step in terms of fetch (R100, R106, R107) -/

theorem step_of_not_running {s : State} (h : s.status ≠ .running) : step s = .fault .notRunning := by
  simp only [step, if_neg h]

theorem step_of_fetch_error {s : State} {k : FaultKind} (hrun : s.status = .running) (h : fetch s = .error k) :
    step s = .next (raise k s) := by
  simp only [step, if_pos hrun, h, takeFault]

theorem step_of_fetch_ok {s u : State} {w : Word} (hrun : s.status = .running) (h : fetch s = .ok (w, u)) :
    step s = retire w (exec (decodeWord w) u) := by
  simp only [step, if_pos hrun, h]

theorem retire_of_running {u : State} (h : u.status = .running) (w : Word) :
    retire w (.next u) = .next { u with trace := some w } := by
  simp only [retire, if_pos h]

/-- Settles O13: fetch at each kind of index, and the frame of the one register write it makes. -/
theorem fetchAdvancesRn : Obligations.FetchAdvancesRn := by
  intro s w hw
  have hwrite := fun x => registerWriteIsReadBack .rn x s
  refine ⟨fun h => ?_, fun h ht => ?_, fun h ht => ?_⟩
  · obtain ⟨_, e, hread, hframe⟩ := hwrite (readReg .rn s + 1)
    cases e
    exact ⟨_, fetch_of_ne_last hw h, by rw [hread, toNat_advance h], hframe⟩
  · have hfetch := fetch_last_of_target_ne hw h ht
    exact ⟨hfetch, fun hrun => ⟨step_of_fetch_error hrun hfetch, h⟩⟩
  · obtain ⟨_, e, hread, hframe⟩ := hwrite overflowedRn
    cases e
    exact ⟨_, fetch_last_of_target_eq hw h ht, hread, hframe⟩

/-- Settles O12: a fetch past the end raises FetchInvalid on the state as it was; reset to N = 0 is one such state. -/
theorem fetchPastEndFaults : Obligations.FetchPastEndFaults := by
  have hstep {s : State} (hrun : s.status = .running) (h : s.code.length ≤ (readReg .rn s).toNat) :
      step s = .next (raise .fetchInvalid s) := step_of_fetch_error hrun (fetch_of_length_le h)
  exact ⟨fun _ hrun h => ⟨hstep hrun h, rfl, rfl⟩, _, hstep rfl (Nat.zero_le _), rfl⟩

/-- Settles O14: after a fetch that gives a word, the step is `retire` of the instruction's answer. -/
theorem stepRunsDecodedInstruction : Obligations.StepRunsDecodedInstruction := by
  intro s u w hrun hfetch
  rw [step_of_fetch_ok hrun hfetch]
  refine ⟨fun t h => ?_, fun r h => ?_, fun r h => ?_⟩ <;> rw [h] <;> rfl

/-- Settles O24: a fetch fault is a next state, and `exec_moves` says where an instruction has none; RN, which fetch has
advanced, is neither RS nor part of the host's side. -/
theorem runningMachineSteps : Obligations.RunningMachineSteps := by
  intro s hrun
  rcases fetch_error_or_ok s with ⟨k, hfetch⟩ | ⟨w, x, hfetch⟩
  · exact .inl ⟨_, step_of_fetch_error hrun hfetch⟩
  · rw [step_of_fetch_ok hrun hfetch]
    rcases exec_moves (decodeWord w) (writeReg .rn x s) with ⟨u, e⟩ | ⟨hint, hrs, hsilent, e⟩ <;> rw [e]
    · exact .inl ⟨_, rfl⟩
    · rw [readReg_writeReg_ne (by decide)] at hrs
      exact .inr ⟨rfl, hsilent, hrs, w, _, hfetch, hint⟩

/-! ### The trace word (R106) -/

/-- No instruction puts out a trace word itself. -/
theorem exec_trace {i : Instr} {s u : State} (h : exec i s = .next u) : u.trace = s.trace := by
  rcases exec_next_cases h with ⟨_, _, _, htrace⟩ | ⟨k, range, n, v, _, _, rfl, _, _, _, htrace⟩
  · exact htrace
  · rw [raisePartial_trace, htrace]

/-- Settles O15: the end of a step that goes on puts out the word, and nothing else writes the trace word. -/
theorem traceWordOfSuccessfulStep : Obligations.TraceWordOfSuccessfulStep := by
  intro s t hrun h
  rcases step_cases hrun h with ⟨k, _, _, rfl⟩ | ⟨w, x, u, hw, _, hu, ⟨hur, rfl⟩ | ⟨hne, rfl⟩⟩
  · exact ⟨fun hr => absurd hr (raise_status_ne_running s k), fun _ => rfl⟩
  · exact ⟨fun _ => ⟨w, hw, rfl⟩, fun hn => absurd hur hn⟩
  · exact ⟨fun hr => absurd hr hne, fun _ => (exec_trace hu).trans (writeReg_trace ..)⟩

/-! ### Jumps and sequential execution (R103, R105, R108, R109) -/

theorem exec_set_of_id {t : Nibble} {r : Reg} (ht : t.toNat = r.id) (k : Byte) (s : State) :
    exec (.set t k) s = .next (writeReg r k s) := withTarget_ok ht s _

/-- Settles O16: the word's target field is RN, so every index fetches it, and the write of RN replaces the advance. -/
theorem setRnJumps : Obligations.SetRnJumps := by
  intro s k hrun hw
  obtain ⟨_, htarget, _⟩ := Laws.Fields.set 8 k
  obtain ⟨x, hfetch⟩ := fetch_of_target_eq hw htarget
  have hstep : step s = .next { writeReg .rn k s with trace := some (encode (.set 8 k)) } := by
    rw [step_of_fetch_ok hrun hfetch, decodeWord_encode, exec_set_of_id (r := .rn) rfl, writeReg_twice]
    exact retire_of_running (u := writeReg .rn k s) hrun _
  obtain ⟨_, e, hread, hregs, hstack, _⟩ := registerWriteIsReadBack .rn k s
  cases e
  exact ⟨_, hstep, hread, hrun, hregs, hstack⟩

theorem readReg_writeFree_of_not_mem {r : Reg} {n : Nat} {l : List Reg} (h : r ∉ l) (s : State) :
    readReg r (writeFree n l s) = readReg r s := by
  induction l generalizing s with
  | nil => rfl
  | cons q rest ih =>
    rw [List.mem_cons, not_or] at h
    rw [writeFree, ih h.2, readReg_writeReg_ne h.1]

/-- A fault inside a multi-element instruction leaves the registers outside RD and its range (R224). -/
theorem readReg_raisePartial_of_not_mem {r : Reg} {range : List Reg} (h : r ∉ .rd :: range) (k : FaultKind) (n : Nat)
    (s : State) : readReg r (raisePartial k range n s) = readReg r s := by
  rcases raisePartial_cases k range n s with e | ⟨_, e⟩ <;> rw [e]
  · rfl
  · exact readReg_writeFree_of_not_mem h _

theorem pushEach_keeps_reg {α : Type} {r : Reg} (hr : r ≠ .rd) (value : α → State → Byte) (l : List α) (n : Nat)
    (s : State) : resultHolds (fun u => readReg r u = readReg r s) (pushEach value l n s) :=
  pushEach_keeps value (fun _ _ h _ => (readReg_writeReg_ne hr _ _).trans h) l n s rfl

theorem popEach_keeps_reg {r : Reg} (hr : r ≠ .rd) {l : List Reg} (hl : r ∉ l) (n : Nat) (s : State) :
    resultHolds (fun u => readReg r u = readReg r s) (popEach l n s) :=
  popEach_keeps_of_mem l n s (fun q hq _ _ u h _ _ => by
    rw [readReg_writeReg_ne (ne_of_mem_of_not_mem hq hl).symm, readReg_writeReg_ne hr]
    exact h) rfl

/-- An instruction leaves every register but RD that it does not name as its destination, whether it completes or
faults; a `psh` that faults with free values is left out, for its range may hold the register (R224). -/
theorem exec_keeps_reg {i : Instr} {r : Reg} {s u : State} (hr : r ≠ .rd) (hname : ¬ namesDestination i r)
    (h : exec i s = .next u) (hpsh : u.status = .running ∨ i.opcode ≠ .psh) : readReg r u = readReg r s := by
  by_cases hi : singleElement i
  · rcases exec_single i s hi with ⟨k, _, e⟩ | ⟨q, x, hq, e⟩ | e <;> cases e.symm.trans h
    · rfl
    · exact readReg_writeReg_ne (by rintro rfl; exact hname hq) x s
    · rfl
  · cases i <;> simp [singleElement, Instr.opcode] at hi
    case int t v =>
      have hr0 : r ≠ .r0 := hname
      have hpushed := fun bytes : List Byte =>
        pushEach_keeps_reg hr (fun b _ => b) (bytes.take (readCount bytes s)) 0 (takeLine s)
      cases int_cases t v s with
      | halt _ e | printed _ _ e | printError _ _ e | readError _ _ e | unimplemented _ _ _ e =>
        cases e.symm.trans h; rfl
      | silent _ _ e => cases e.symm.trans h
      | read _ bytes _ w hw e =>
        cases e.symm.trans h
        have := hpushed bytes
        rw [hw] at this
        exact (readReg_writeReg_ne hr0 _ w).trans this
      | readFull _ bytes _ n w hw e =>
        cases e.symm.trans h
        have := hpushed bytes
        rw [hw] at this
        exact (readReg_raisePartial_of_not_mem (by simp [hr, hr0]) _ n w).trans this
    case psh t v =>
      have hpushed := fun rt rv => pushEach_keeps_reg hr readReg (regRange rt rv) 0 s
      rcases psh_cases t v s with ⟨k, _, e⟩ | ⟨rt, rv, _, _, ⟨w, hw, e⟩ | ⟨n, w, _, e⟩⟩ <;> cases e.symm.trans h
      · rfl
      · have := hpushed rt rv
        rw [hw] at this
        exact this
      · exact absurd (hpsh.resolve_right fun hne => hne rfl) (raisePartial_status_ne_running _ _ n w)
    case pop t v =>
      rcases pop_cases t v s with ⟨k, _, e⟩ | ⟨rt, rv, ht, hv, hends⟩
      · cases e.symm.trans h; rfl
      · have hnot : r ∉ regRange rt rv := by
          rw [namesDestination, ht, hv] at hname
          rwa [mem_regRange]
        have hpopped := popEach_keeps_reg hr (mt List.mem_reverse.mp hnot) 0 s
        rcases hends with ⟨w, hw, e⟩ | ⟨n, w, hw, e⟩ <;> cases e.symm.trans h <;> rw [hw] at hpopped
        · exact hpopped
        · exact (readReg_raisePartial_of_not_mem (by simp [hr, hnot]) _ n w).trans hpopped

/-- Settles O17: fetch advances RN, and the instruction leaves it there. -/
theorem sequentialUnlessRnNamed : Obligations.SequentialUnlessRnNamed := by
  intro s t w hrun hw hlast hname h hpsh
  have hfetch := fetch_of_ne_last hw hlast
  rw [step_of_fetch_ok hrun hfetch] at h
  obtain ⟨u, hu, ht⟩ := retire_next h
  have hkept : (u.status = .running ∨ (decodeWord w).opcode ≠ .psh) → readReg .rn u = readReg .rn s + 1 :=
    fun hp => (exec_keeps_reg (by decide) hname hu hp).trans (readReg_writeReg_same ..)
  rcases ht with ⟨_, rfl⟩ | ⟨_, rfl⟩
  · rw [readReg_with_trace, hkept hpsh, toNat_advance hlast]
  · rw [hkept hpsh, toNat_advance hlast]

/-! ### The run loop (R110 to R113) -/

theorem runFor_of_not_running {s : State} (h : s.status ≠ .running) (n : Nat) : runFor n s = .ended s := by
  cases n <;> simp only [runFor, if_neg h]

theorem runFor_zero_of_running {s : State} (h : s.status = .running) : runFor 0 s = .unfinished s := by
  simp only [runFor, if_pos h]

/-- Everything the first step of a run can do to it, whatever the limit. -/
theorem runFor_succ_cases {s : State} (hrun : s.status = .running) :
    (∃ s', ∀ n, runFor (n + 1) s = runFor n s') ∨ ∀ n, runFor (n + 1) s = .held s := by
  cases h : step s with
  | next s' => exact .inl ⟨s', fun n => by simp only [runFor, if_pos hrun, h]⟩
  | fault r | refused r => exact .inr fun n => by simp only [runFor, if_pos hrun, h]

/-- Settles O11: no step and no run moves a machine that is not Running; a running one moves or is held by its host. -/
theorem stepOnlyWhileRunning : Obligations.StepOnlyWhileRunning := by
  intro s
  refine ⟨fun h => ⟨step_of_not_running h, runFor_of_not_running h⟩, fun hrun => ?_⟩
  rcases runningMachineSteps s hrun with ⟨t, e⟩ | ⟨e, _⟩ <;> rw [e] <;> nofun

theorem runFor_ended {n : Nat} {s t : State} (h : runFor n s = .ended t) (m : Nat) :
    runFor (n + m) s = .ended t ∧ t.status ≠ .running := by
  induction n generalizing s with
  | zero =>
    by_cases hrun : s.status = .running
    · rw [runFor_zero_of_running hrun] at h; cases h
    · rw [runFor_of_not_running hrun] at h ⊢
      cases h
      exact ⟨rfl, hrun⟩
  | succ n ih =>
    by_cases hrun : s.status = .running
    · rw [Nat.add_right_comm]
      rcases runFor_succ_cases hrun with ⟨s', e⟩ | e <;> rw [e] at h ⊢
      · exact ih h
      · cases h
    · rw [runFor_of_not_running hrun] at h ⊢
      cases h
      exact ⟨rfl, hrun⟩

theorem runFor_unfinished {n : Nat} {s t : State} (h : runFor n s = .unfinished t) : t.status = .running := by
  induction n generalizing s with
  | zero =>
    by_cases hrun : s.status = .running
    · rw [runFor_zero_of_running hrun] at h
      cases h
      exact hrun
    · rw [runFor_of_not_running hrun] at h; cases h
  | succ n ih =>
    by_cases hrun : s.status = .running
    · rcases runFor_succ_cases hrun with ⟨s', e⟩ | e <;> rw [e] at h
      · exact ih h
      · cases h
    · rw [runFor_of_not_running hrun] at h; cases h

/-- Settles O55: by induction on the limit, the run after one step being a run with a limit one less. -/
theorem endedRunStaysEnded : Obligations.EndedRunStaysEnded :=
  fun _ m _ _ => ⟨fun h => runFor_ended h m, runFor_unfinished⟩

end Sys2Proof.Machine
end

section
/-! Settled obligations of the family 41_int.md: the system call selected by RS. -/

namespace Sys2Proof.Machine

/-! ### The selector (R120, R121, R124) -/

section Selector

variable (t : Nibble) (v : Byte) {s : State}

theorem exec_int_of_zero (h : readReg .rs s = 0) : exec (.int t v) s = .next (raise .halt s) := if_pos h

theorem exec_int_of_printline (h : readReg .rs s = Config.intCodes.printline) : exec (.int t v) s = printLine s := by
  show execInt t v s = _
  rw [execInt, if_neg (h ▸ Config.intCodes.printline_ne_halt), if_pos h]

theorem exec_int_of_readline (h : readReg .rs s = Config.intCodes.readline) : exec (.int t v) s = readLine s := by
  show execInt t v s = _
  rw [execInt, if_neg (h ▸ Config.intCodes.readline_ne_halt),
    if_neg (h ▸ Config.intCodes.printline_ne_readline.symm), if_pos h]

end Selector

/-- Settles O30: the three tests of the selector fail. -/
theorem intUnimplementedSelector : Obligations.IntUnimplementedSelector := by
  intro t v s h0 hprint hread
  show execInt t v s = _
  rw [execInt, if_neg (c := readReg .rs s = Config.haltCode) h0, if_neg hprint, if_neg hread, takeFault]

/-- Settles O25: HALT is fault entry with kind Halt, which fills the record and sets the status and nothing else. -/
theorem intHaltsAtZero : Obligations.IntHaltsAtZero :=
  fun t v s h => ⟨raise .halt s, exec_int_of_zero t v h, rfl, rfl, rfl⟩

/-! ### PRINTLINE (R122, R126) -/

theorem printLine_of_accepted {s : State} (h : printReply s = .accepted) :
    printLine s = .next (acceptOutput (s.stack.drop (readReg .r0 s).toNat) (takeReply s)) := by
  rw [printLine, h]

theorem printLine_of_ioError {s : State} (h : printReply s = .ioError) :
    printLine s = .next (raise .interrupt (takeReply s)) := by
  rw [printLine, h, takeFault]

/-- Settles O26: taking the reply and logging the output touch the host's side of PRINTLINE alone. -/
theorem intPrintsLine : Obligations.IntPrintsLine := by
  intro t v s hrs hreply
  exact ⟨_, (exec_int_of_printline t v hrs).trans (printLine_of_accepted hreply), rfl, rfl, rfl,
    ⟨rfl, rfl, rfl, rfl, rfl⟩, ⟨rfl, rfl⟩, rfl, rfl⟩

/-! ### READLINE (R123, R125, R126) -/

theorem readLine_of_silent {s : State} (h : lineAnswer s = .silent) : readLine s = .fault .hostSilent := by
  rw [readLine, h]

theorem readLine_of_ioError {s : State} (h : lineAnswer s = .ioError) :
    readLine s = .next (raise .interrupt (takeLine s)) := by
  rw [readLine, h, takeFault]

theorem length_take_readCount (bytes : List Byte) (s : State) :
    (bytes.take (readCount bytes s)).length = readCount bytes s :=
  List.length_take_of_le (Nat.min_le_right ..)

/-- With room for the bytes counted, they are pushed and R0 becomes their number. -/
theorem readLine_of_room {s : State} {bytes : List Byte} (h : lineAnswer s = .line bytes)
    (hroom : roomFor (readCount bytes s) s) :
    readLine s = .next (writeReg .r0 (BitVec.ofNat 8 (readCount bytes s))
      (pushed (bytes.take (readCount bytes s)) (takeLine s))) := by
  have hp := pushEach_done (fun b _ => b) (bytes.take (readCount bytes s)) 0 (takeLine s)
    (by rw [length_take_readCount]; exact hroom)
  rw [pushValues_bytes] at hp
  unfold readCount at hp ⊢
  simp only [readLine, h, hp]

/-- With room for only `j` of the bytes counted, the push of byte `j` ends the instruction. -/
theorem readLine_of_full {s : State} {bytes : List Byte} {j : Nat} (h : lineAnswer s = .line bytes)
    (hj : j < readCount bytes s) (hroom : roomFor j s) (hfull : ¬ roomFor (j + 1) s) :
    readLine s = .next (raisePartial .stackOverflow [.r0] j (pushed (bytes.take j) (takeLine s))) := by
  have hp := pushEach_raised (fun b _ => b) (bytes.take (readCount bytes s)) 0 j (takeLine s)
    (by rw [length_take_readCount]; exact hj) hroom hfull
  rw [pushValues_bytes, List.take_take, Nat.min_eq_left hj.le, Nat.zero_add] at hp
  unfold readCount at hp
  simp only [readLine, h, hp]

/-- Settles O29: the meaning has no next state for a silent host. -/
theorem intHeldBySilentHost : Obligations.IntHeldBySilentHost :=
  fun t v _ hrs hsilent => (exec_int_of_readline t v hrs).trans (readLine_of_silent hsilent)

/-! ### What pushed bytes leave, and what a fault after them leaves (R58, R224) -/

theorem pushed_frame (bs : List Byte) (s : State) :
    regsSameExcept [.rd] s (pushed bs s) ∧ restSame s (pushed bs s) := writeRd_setStack_frame ..

theorem toNat_readReg_pushed_rd {bs : List Byte} {s : State} (h : roomFor bs.length s) :
    (readReg .rd (pushed bs s)).toNat = (readReg .rd s).toNat + bs.length := by
  have hmax := h.1
  rw [readReg_pushed_rd, BitVec.toNat_add, BitVec.toNat_ofNat]
  omega

theorem raisePartial_of_retained (h : Config.partialEffects = .retained) (k : FaultKind) (range : List Reg) (n : Nat)
    (s : State) : raisePartial k range n s = raise k s := by
  rcases raisePartial_cases k range n s with e | ⟨hfree, _⟩
  · exact e
  · rw [h] at hfree; cases hfree

@[simp] theorem raisePartial_entry13 (k : FaultKind) (range : List Reg) (n : Nat) (s : State) :
    (raisePartial k range n s).regs[13] = s.regs[13] :=
  settlePartial_keeps (P := fun u => u.regs[13] = s.regs[13])
    (fun r x u h => (writeReg_entry13 u r x).trans h) (fun _ _ _ h => h) range n (raise k s) rfl

/-- A fault after `n` elements keeps what fault entry itself keeps, unless free values are drawn, and these reach only
RD and the range. -/
theorem leftByFault_raisePartial {kept : State → Prop} {k : FaultKind} {range : List Reg} {s u : State} (n : Nat)
    (hkept : kept (raise k u)) (hregs : regsSameExcept (.rd :: range) s u) :
    leftByFault range n (kept (raisePartial k range n u)) s (raisePartial k range n u) := by
  refine ⟨?_, ?_⟩
  · rintro rfl
    exact hkept
  · cases hp : Config.partialEffects with
    | retained => rw [raisePartial_of_retained hp]; exact hkept
    | unspecified =>
      exact ⟨fun q hq => (readReg_raisePartial_of_not_mem hq k n u).trans (hregs.1 q hq),
        (raisePartial_entry13 k range n u).trans hregs.2⟩

theorem regsSameExcept_mono {ds es : List Reg} {s u : State} (h : regsSameExcept ds s u) (hsub : ds ⊆ es) :
    regsSameExcept es s u := ⟨fun q hq => h.1 q fun hm => hq (hsub hm), h.2⟩

/-- Settles O27: the bytes are pushed onto the state whose line is consumed, and then R0 takes their number. -/
theorem intReadsLine : Obligations.IntReadsLine := by
  intro t v s bytes hrs hline hroom
  change roomFor (readCount bytes s) s at hroom
  obtain ⟨⟨hregs, h13⟩, hrun, hprint, hanswers, hasked⟩ :=
    pushed_frame (bytes.take (readCount bytes s)) (takeLine s)
  have hrd := toNat_readReg_pushed_rd (bs := bytes.take (readCount bytes s)) (s := takeLine s)
    (by rw [length_take_readCount]; exact hroom)
  rw [length_take_readCount] at hrd
  refine ⟨_, (exec_int_of_readline t v hrs).trans (readLine_of_room hline hroom), rfl, ?_, ?_, ⟨fun q hq => ?_, ?_⟩,
    hrun, hprint, hanswers, hasked⟩
  · rw [readReg_writeReg_ne (by decide)]
    exact hrd
  · rw [readReg_writeReg_same, BitVec.toNat_ofNat, Nat.mod_eq_of_lt]
    · rfl
    · exact (Nat.min_le_left ..).trans_lt (readReg .r0 s).isLt
  · simp only [List.mem_cons, List.not_mem_nil, or_false, not_or] at hq
    rw [readReg_writeReg_ne hq.1]
    exact hregs q (by simpa using hq.2)
  · rw [writeReg_entry13]
    exact h13

/-- Settles O28: fault entry follows the bytes that had room, so the record and the rest are those of `raisePartial`. -/
theorem intReadStopsAtFullStack : Obligations.IntReadStopsAtFullStack := by
  intro t v s bytes j hrs hline hj hroom hfull
  have hlen : (bytes.take j).length = j := List.length_take_of_le (hj.le.trans (Nat.min_le_right ..))
  obtain ⟨hregs, _⟩ := pushed_frame (bytes.take j) (takeLine s)
  have hrd := toNat_readReg_pushed_rd (bs := bytes.take j) (s := takeLine s) (by rw [hlen]; exact hroom)
  rw [hlen] at hrd
  refine ⟨_, (exec_int_of_readline t v hrs).trans (readLine_of_full hline hj hroom hfull),
    ⟨?_, raisePartial_status ..⟩, raisePartial_code .., raisePartial_trace ..,
    leftByFault_raisePartial
      (kept := fun u => u.stack = s.stack ++ bytes.take j ∧
        (readReg .rd u).toNat = (readReg .rd s).toNat + j ∧ regsSameExcept [.rd] s u)
      j ⟨rfl, hrd, hregs⟩ (regsSameExcept_mono hregs (by simp))⟩
  rw [raisePartial_fault, readReg_pushed_ne (by decide), readReg_takeLine]

/-! ### Interrupt (R126) -/

theorem interrupt_mem_executeKinds_iff (o : Opcode) : .interrupt ∈ executeKinds o ↔ o = .int := by
  have hvalue : .interrupt ≠ valueRegKind := by rcases valueRegKind_cases with h | h <;> rw [h] <;> decide
  have hpop : .interrupt ≠ popUnderflowKind := by rcases popUnderflowKind_cases with h | h <;> rw [h] <;> decide
  cases o <;> simp [executeKinds, hvalue, hpop]

/-- Of the answers of `int`, only the two to an I/O error record Interrupt. -/
theorem int_interrupt_cause {t : Nibble} {v : Byte} {s u : State} {ip : Byte} (hs : s.fault = none)
    (h : exec (.int t v) s = .next u) (hf : u.fault = some ⟨.interrupt, ip⟩) :
    (readReg .rs s = Config.intCodes.printline ∧ printReply s = .ioError) ∨
    (readReg .rs s = Config.intCodes.readline ∧ lineAnswer s = .ioError) := by
  cases int_cases t v s with
  | printError hrs hreply _ => exact .inl ⟨hrs, hreply⟩
  | readError hrs hanswer _ => exact .inr ⟨hrs, hanswer⟩
  | halt _ e | unimplemented _ _ _ e => cases e.symm.trans h; cases hf
  | printed _ _ e => cases e.symm.trans h; cases hs.symm.trans hf
  | silent _ _ e => cases e.symm.trans h
  | read _ bytes _ w hw e =>
    cases e.symm.trans h
    have hkept := pushEach_runKept (fun b _ => b) (bytes.take (readCount bytes s)) 0 (takeLine s)
    rw [hw] at hkept
    obtain ⟨_, _, hfault, _⟩ := hkept
    cases (hfault.trans hs).symm.trans hf
  | readFull _ _ _ n w _ e =>
    cases e.symm.trans h
    rw [raisePartial_fault] at hf
    cases hf

/-- Settles O22: the kind is of `int` alone, and `int` raises it on an I/O error and on nothing else. -/
theorem interruptOnlyOnHostError : Obligations.InterruptOnlyOnHostError := by
  refine ⟨fun i s u ip hs h hf => ?_,
    fun t v s hrs hreply => (exec_int_of_printline t v hrs).trans (printLine_of_ioError hreply),
    fun t v s hrs hanswer => (exec_int_of_readline t v hrs).trans (readLine_of_ioError hanswer)⟩
  have hint : i.opcode = .int := (interrupt_mem_executeKinds_iff _).mp (exec_fault_kind hs h hf)
  refine ⟨hint, ?_⟩
  cases i <;> cases hint
  exact int_interrupt_cause hs h hf

end Sys2Proof.Machine
end

section
/-! Settled obligations of the family 42_set_stack.md: `set`, `psh` and `pop`. -/

namespace Sys2Proof.Machine

/-! ### `set` (R140) -/

/-- Settles O31: the target decodes to its register, and the write of a register is read back and changes nothing else;
no register has an id of 13 to 15. -/
theorem setLoadsImmediate : Obligations.SetLoadsImmediate := by
  refine ⟨encodedBy_ofBits 0x1, fun t m s => ⟨fun ht => ?_, fun r hr => ?_⟩⟩
  · exact exec_of_targetOk_false ((Instr.targetOk_eq_false_iff (.set t m)).mpr ⟨nofun, ht⟩) s
  · rw [exec_set_of_id hr]
    exact registerWriteIsReadBack r m s

/-! ### The register range (R141, R142) -/

/-- Settles O32: the ids of all registers are the interval from 0 to 12, and the range keeps those within its bounds. -/
theorem registerRangeAscends : Obligations.RegisterRangeAscends := by
  intro a b
  have ha := reg_id_lt a
  have hb := reg_id_lt b
  have hids : Reg.all.map Reg.id = List.Ico 0 13 := rfl
  have hbound (i : Nat) : decide (i ≤ max a.id b.id) = decide (i < max a.id b.id + 1) :=
    decide_eq_decide.mpr Nat.lt_succ_iff.symm
  calc (regRange a b).map Reg.id
    _ = (Reg.all.map Reg.id).filter fun i => decide (min a.id b.id ≤ i) && decide (i ≤ max a.id b.id) := by
      rw [List.filter_map]; rfl
    _ = List.Ico (min a.id b.id) (max a.id b.id + 1) := by
      simp only [hids, hbound, ← List.filter_filter, List.Ico.filter_lt, List.Ico.filter_le]
      congr 1; omega
    _ = List.range' (min a.id b.id) (max a.id b.id - min a.id b.id + 1) := by
      rw [List.Ico]; congr 1; omega

/-! ### What a fault leaves of the host's side (R224) -/

theorem raisePartial_hostSame (k : FaultKind) (range : List Reg) (n : Nat) (s : State) :
    printSame s (raisePartial k range n s) ∧ lineSame s (raisePartial k range n s) :=
  settlePartial_keeps (P := fun u => printSame s u ∧ lineSame s u) (fun _ _ _ h => h) (fun _ _ _ h => h) range n
    (raise k s) ⟨⟨rfl, rfl, rfl⟩, rfl, rfl⟩

/-- A fault on a state that differs from `s` in its registers and stack alone leaves the bytecode, the trace word and
the host's side of `s`. -/
theorem raisePartial_keeps_rest {s u : State} (h : restSame s u) (k : FaultKind) (range : List Reg) (n : Nat) :
    (raisePartial k range n u).code = s.code ∧ (raisePartial k range n u).trace = s.trace ∧
    printSame s (raisePartial k range n u) ∧ lineSame s (raisePartial k range n u) := by
  obtain ⟨⟨hcode, _, _, htrace, _⟩, ⟨ho, hp, hn⟩, hl, ha⟩ := h
  obtain ⟨⟨ho', hp', hn'⟩, hl', ha'⟩ := raisePartial_hostSame k range n u
  exact ⟨(raisePartial_code ..).trans hcode, (raisePartial_trace ..).trans htrace,
    ⟨ho'.trans ho, hp'.trans hp, hn'.trans hn⟩, hl'.trans hl, ha'.trans ha⟩

/-! ### `psh` (R141) -/

theorem length_pushedValues (range : List Reg) (s : State) : (pushedValues range s).length = range.length :=
  List.length_mapIdx

theorem exec_psh_of_ids {t : Nibble} {v : Byte} {rt rv : Reg} (ht : t.toNat = rt.id) (hv : v.toNat = rv.id)
    (s : State) :
    exec (.psh t v) s = finishRange (regRange rt rv) (pushEach readReg (regRange rt rv) 0 s) :=
  withOperands_ok ht hv s _

/-- With room for the whole range, its values are pushed. -/
theorem exec_psh_of_room {t : Nibble} {v : Byte} {rt rv : Reg} {s : State} (ht : t.toNat = rt.id)
    (hv : v.toNat = rv.id) (h : roomFor (regRange rt rv).length s) :
    exec (.psh t v) s = .next (pushed (pushedValues (regRange rt rv) s) s) := by
  rw [exec_psh_of_ids ht hv, pushEach_done readReg _ _ _ h, pushValues_regs, finishRange]

/-- With room for only `k` values of the range, the push of the next ends the instruction. -/
theorem exec_psh_of_full {t : Nibble} {v : Byte} {rt rv : Reg} {s : State} {k : Nat} (ht : t.toNat = rt.id)
    (hv : v.toNat = rv.id) (hk : k < (regRange rt rv).length) (h : roomFor k s) (hfull : ¬ roomFor (k + 1) s) :
    exec (.psh t v) s = .next (raisePartial .stackOverflow (regRange rt rv) k
      (pushed ((pushedValues (regRange rt rv) s).take k) s)) := by
  rw [exec_psh_of_ids ht hv, pushEach_raised readReg _ _ _ _ hk h hfull, pushValues_regs, finishRange, Nat.zero_add]

/-- Settles O33: the values pushed are as many as the registers of the range, and pushes move RD and the stack alone. -/
theorem pshPushesRange : Obligations.PshPushesRange := by
  intro t v rt rv s ht hv hroom
  obtain ⟨hregs, hrest⟩ := pushed_frame (pushedValues (regRange rt rv) s) s
  have hrd := toNat_readReg_pushed_rd (bs := pushedValues (regRange rt rv) s) (s := s) (by rwa [length_pushedValues])
  rw [length_pushedValues] at hrd
  exact ⟨_, exec_psh_of_room ht hv hroom, pushed_stack .., hrd, hregs, hrest⟩

/-- Settles O34: fault entry follows the `k` pushes that had room, none of which moves RN. -/
theorem pshStopsAtFullStack : Obligations.PshStopsAtFullStack := by
  intro t v rt rv s k ht hv hk hroom hfull
  have hlen : ((pushedValues (regRange rt rv) s).take k).length = k :=
    List.length_take_of_le (by rw [length_pushedValues]; exact hk.le)
  obtain ⟨hregs, hrest⟩ := pushed_frame ((pushedValues (regRange rt rv) s).take k) s
  have hrd := toNat_readReg_pushed_rd (bs := (pushedValues (regRange rt rv) s).take k) (s := s) (by rwa [hlen])
  rw [hlen] at hrd
  obtain ⟨hcode, htrace, hprint, hline⟩ := raisePartial_keeps_rest hrest .stackOverflow (regRange rt rv) k
  refine ⟨_, exec_psh_of_full ht hv hk hroom hfull, ⟨?_, raisePartial_status ..⟩, hcode, htrace, hprint, hline,
    leftByFault_raisePartial
      (kept := fun u => u.stack = s.stack ++ (pushedValues (regRange rt rv) s).take k ∧
        (readReg .rd u).toNat = (readReg .rd s).toNat + k ∧ regsSameExcept [.rd] s u)
      k ⟨rfl, hrd, hregs⟩ (regsSameExcept_mono hregs (by simp))⟩
  rw [raisePartial_fault, readReg_pushed_ne (by decide)]

/-! ### `pop` (R142) -/

theorem exec_pop_of_ids {t : Nibble} {v : Byte} {rt rv : Reg} (ht : t.toNat = rt.id) (hv : v.toNat = rv.id)
    (s : State) :
    exec (.pop t v) s = finishRange (regRange rt rv) (popEach (regRange rt rv).reverse 0 s) :=
  withOperands_ok ht hv s _

/-- Where every pop succeeds, all of them are done. -/
theorem popEach_done {regs : List Reg} {s : State} (hnd : regs.Nodup) (h : popsSucceed regs regs.length s) (n : Nat) :
    ∃ u, popEach regs n s = .done u ∧ AfterPops regs regs.length s u := by
  obtain ⟨u, e, hu⟩ := popEach_after regs n regs.length s hnd le_rfl h
  rw [List.drop_length] at e
  exact ⟨u, e, hu⟩

/-- Where the first `k` pops succeed and the next does not, that one raises the underflow fault and does nothing. -/
theorem popEach_raised {regs : List Reg} {s : State} {k : Nat} (hnd : regs.Nodup) (hk : k < regs.length)
    (h : popsSucceed regs k s) (hfail : ¬ popsSucceed regs (k + 1) s) (n : Nat) :
    ∃ u, popEach regs n s = .raised popUnderflowKind (n + k) u ∧ AfterPops regs k s u := by
  obtain ⟨u, e, hu⟩ := popEach_after regs n k s hnd hk.le h
  have hunder : u.stack = [] ∨ readReg .rd u = 0 := by
    by_contra hne
    rw [not_or] at hne
    obtain ⟨hst, hrd⟩ := hne
    refine hfail fun j hj => ?_
    rcases Nat.lt_succ_iff_lt_or_eq.mp hj with hlt | rfl
    · exact h j hlt
    · refine ⟨?_, hu.depth ▸ toNat_ne_zero hrd⟩
      rw [hu.stack, List.take_eq_nil_iff] at hst
      omega
  refine ⟨u, ?_, hu⟩
  rw [e, List.drop_eq_getElem_cons hk, popEach, popChecked_of_underflow hunder]

/-- RN after `k` pops is the value popped into it, or its old value. -/
theorem AfterPops.rn {regs : List Reg} {k : Nat} {s u : State} (h : AfterPops regs k s u) :
    readReg .rn u = rnAfterPops regs s k := by
  unfold rnAfterPops
  cases hp : (regs.take k).idxOf? .rn with
  | none => exact h.frame.1 .rn (by simpa using List.idxOf?_eq_none_iff.mp hp)
  | some p =>
    obtain ⟨hlt, hrn, _⟩ := List.findIdx?_eq_some_iff_getElem.mp hp
    exact h.values p .rn (List.getElem?_eq_some_iff.mpr ⟨hlt, eq_of_beq hrn⟩) (by decide)

/-- Settles O35: the pops are done in descending order of id, and what they leave is `AfterPops`. -/
theorem popPopsRange : Obligations.PopPopsRange := by
  intro t v rt rv s ht hv hpops
  have hlen : (regRange rt rv).reverse.length = (regRange rt rv).length := List.length_reverse
  rw [← hlen] at hpops ⊢
  obtain ⟨u, e, hstack, hdepth, hvalues, hframe, hrest⟩ :=
    popEach_done (List.nodup_reverse.mpr (regRange_nodup rt rv)) hpops 0
  rw [List.take_length] at hvalues hframe
  exact ⟨u, by rw [exec_pop_of_ids ht hv, e, finishRange], hstack, hdepth, hvalues,
    regsSameExcept_mono hframe (by simp), hrest⟩

/-- Settles O36: fault entry follows the `k` pops that succeed, and records RN as they leave it. -/
theorem popStopsAtUnderflow : Obligations.PopStopsAtUnderflow := by
  intro t v rt rv s k ht hv hk hpops hfail
  obtain ⟨u, e, hu⟩ := popEach_raised (List.nodup_reverse.mpr (regRange_nodup rt rv))
    (hk.trans_eq List.length_reverse.symm) hpops hfail 0
  obtain ⟨hcode, htrace, hprint, hline⟩ := raisePartial_keeps_rest hu.rest popUnderflowKind (regRange rt rv) k
  rw [Nat.zero_add] at e
  refine ⟨_, by rw [exec_pop_of_ids ht hv, e, finishRange], ⟨?_, raisePartial_status ..⟩, hcode, htrace, hprint,
    hline, leftByFault_raisePartial
      (kept := fun w => w.stack = s.stack.take (s.stack.length - k) ∧
        (readReg .rd w).toNat = depthBeforePop (regRange rt rv).reverse s k ∧
        (∀ j r, ((regRange rt rv).reverse.take k)[j]? = some r → r ≠ .rd → readReg r w = poppedAt s j) ∧
        regsSameExcept (.rd :: (regRange rt rv).reverse.take k) s w)
      k ⟨hu.stack, hu.depth, hu.values, hu.frame⟩ (regsSameExcept_mono hu.frame ?_)⟩
  · rw [raisePartial_fault, hu.rn]
  · exact List.cons_subset_cons _ fun q hq => List.mem_reverse.mp (List.mem_of_mem_take hq)

/-! ### `pop` after `psh` (R142) -/

/-- A pop takes back the element just pushed, and RD with it. -/
theorem popChecked_pushed {s : State} (h : roomFor 1 s) (b : Byte) : popChecked (pushed [b] s) = .ok (b, s) := by
  have h0 : readReg .rd (pushed [b] s) ≠ 0 := by
    have := toNat_readReg_pushed_rd (bs := [b]) h
    intro e
    rw [e] at this
    simp at this
  rw [popChecked_of_tail (pushed_stack [b] s) h0, readReg_pushed_rd]
  simp [pushed, writeReg_twice, writeReg_readReg]

theorem popEach_append_of_done {l : List Reg} {n : Nat} {s u : State} (h : popEach l n s = .done u) (l' : List Reg) :
    popEach (l ++ l') n s = popEach l' (n + l.length) u := by
  induction l generalizing n s with
  | nil => cases h; rfl
  | cons r rest ih =>
    rw [popEach] at h
    rw [List.cons_append, popEach, List.length_cons, Nat.add_comm rest.length, ← Nat.add_assoc]
    rcases popChecked_cases s with ⟨st, v, _, _, e⟩ | ⟨_, e⟩ <;> rw [e] at h ⊢
    · exact ih h
    · cases h

/-- Popping in descending order what was pushed in ascending order undoes one push after another, the last one first;
each register takes back the value it has. -/
theorem popEach_reverse_pushed (l : List Reg) (n : Nat) {s : State} (h : roomFor l.length s) :
    popEach l.reverse n (pushed (pushValues readReg l s) s) = .done s := by
  induction l generalizing s with
  | nil => rw [pushValues, pushed_nil]; rfl
  | cons r rest ih =>
    obtain ⟨hone, hrest⟩ := (roomFor_succ rest.length (readReg r s) s).mp h
    rw [pushValues, pushed_cons, List.reverse_cons, popEach_append_of_done (ih hrest), popEach,
      popChecked_pushed hone]
    simp only [popEach, writeReg_readReg]

/-- Settles O37: `pop` undoes the pushes of `psh` one by one. In the model this needs no hypothesis on RD, for RD is
read before its own push and written after its own pop. -/
theorem popUndoesPsh : Obligations.PopUndoesPsh := by
  intro t v rt rv s ht hv _ hroom
  refine ⟨_, exec_psh_of_room ht hv hroom, ?_⟩
  rw [exec_pop_of_ids ht hv, ← pushValues_regs, popEach_reverse_pushed _ 0 hroom, finishRange]

end Sys2Proof.Machine
end

section
/-! Settled obligations of the family 43_arith.md: `add`, `sub`, `mul` and `div`. -/

namespace Sys2Proof.Machine

/-- Every opcode but `int` and `set` decodes its target and then its value register. -/
theorem decodeFaults_ofFields {o : Opcode} (hi : o ≠ .int) (hset : o ≠ .set) : decodeFaults (Instr.ofFields o) := by
  intro t v s
  obtain ⟨body, e⟩ := exec_eq_withOperands (i := Instr.ofFields o t v) (by simpa) (by simpa) s
  rw [Instr.target_ofFields, Instr.value_ofFields] at e
  exact ⟨fun ht => e.trans (withOperands_badTarget ht v s body),
    fun ht hv => e.trans (withOperands_badValue ht hv s body)⟩

/-! ### The checked operation (R164) -/

/-- An exact result that does not exist, or lies above 255, is not stored. -/
theorem storeChecked_of_not_fits {rt : Reg} {result : Option Nat} (h : ∀ n, result = some n → 255 < n) (s : State) :
    storeChecked rt result s = .next (raise .registerOverflow s) := by
  cases result with
  | none => rfl
  | some n => exact if_pos (h n rfl)

theorem storeChecked_of_fits {n : Nat} (h : n ≤ 255) (rt : Reg) (s : State) :
    storeChecked rt (some n) s = .next (writeReg rt (BitVec.ofNat 8 n) s) := if_neg h.not_gt

section
variable {op : Nat → Nat → Option Nat} {t : Nibble} {v : Byte} {rt rv : Reg} {s : State}

theorem checkedOp_of_ids (ht : t.toNat = rt.id) (hv : v.toNat = rv.id) :
    checkedOp op t v s = storeChecked rt (op (readReg rt s).toNat (readReg rv s).toNat) s :=
  withOperands_ok ht hv s _

theorem checkedOp_overflows (ht : t.toNat = rt.id) (hv : v.toNat = rv.id)
    (h : ∀ n, op (readReg rt s).toNat (readReg rv s).toNat = some n → 255 < n) :
    checkedOp op t v s = .next (raise .registerOverflow s) :=
  (checkedOp_of_ids ht hv).trans (storeChecked_of_not_fits h s)

theorem checkedOp_writesOnly {n : Nat} (ht : t.toNat = rt.id) (hv : v.toNat = rv.id)
    (hop : op (readReg rt s).toNat (readReg rv s).toNat = some n) (hn : n ≤ 255) :
    writesOnly rt (BitVec.ofNat 8 n) s (checkedOp op t v s) := by
  rw [checkedOp_of_ids ht hv, hop, storeChecked_of_fits hn]
  exact registerWriteIsReadBack rt _ s

end

/-! ### The four operations (R160 to R163) -/

theorem exactSub_of_lt {a b : Nat} (h : a < b) : exactSub a b = none := if_pos h

theorem exactSub_of_le {a b : Nat} (h : b ≤ a) : exactSub a b = some (a - b) := if_neg h.not_gt

theorem exactDiv_zero (a : Nat) : exactDiv a 0 = none := rfl

theorem exactDiv_of_ne_zero {a b : Nat} (h : b ≠ 0) : exactDiv a b = some (a / b) := if_neg h

/-- Settles O38: the exact sum always exists, so only a sum above 255 overflows. -/
theorem addChecked : Obligations.AddChecked :=
  ⟨encodedBy_ofBits 0x4, decodeFaults_ofFields (o := .add) nofun nofun, fun _ _ _ _ _ ht hv =>
    ⟨fun hover => checkedOp_overflows (op := exactAdd) ht hv fun _ e => Option.some.inj e ▸ hover,
      checkedOp_writesOnly (op := exactAdd) ht hv rfl⟩⟩

/-- Settles O39: no difference exists below zero, and one that exists is at most the first operand, a byte. -/
theorem subChecked : Obligations.SubChecked := by
  refine ⟨encodedBy_ofBits 0x5, decodeFaults_ofFields (o := .sub) nofun nofun, fun t v rt rv s ht hv =>
    ⟨fun hlt => checkedOp_overflows (op := exactSub) ht hv fun n e => ?_,
      fun hle => checkedOp_writesOnly (op := exactSub) ht hv (exactSub_of_le hle) ?_⟩⟩
  · rw [exactSub_of_lt hlt] at e
    cases e
  · have := (readReg rt s).isLt
    omega

/-- Settles O40: the exact product always exists, so only a product above 255 overflows. -/
theorem mulChecked : Obligations.MulChecked :=
  ⟨encodedBy_ofBits 0x6, decodeFaults_ofFields (o := .mul) nofun nofun, fun _ _ _ _ _ ht hv =>
    ⟨fun hover => checkedOp_overflows (op := exactMul) ht hv fun _ e => Option.some.inj e ▸ hover,
      checkedOp_writesOnly (op := exactMul) ht hv rfl⟩⟩

/-- Settles O41: no quotient by 0 exists, and one that exists is at most the first operand, a byte. -/
theorem divChecked : Obligations.DivChecked := by
  refine ⟨encodedBy_ofBits 0x7, decodeFaults_ofFields (o := .div) nofun nofun, fun t v rt rv s ht hv =>
    ⟨fun hzero => checkedOp_overflows (op := exactDiv) ht hv fun n e => ?_,
      fun hne => checkedOp_writesOnly (op := exactDiv) ht hv (exactDiv_of_ne_zero hne) ?_⟩⟩
  · rw [hzero, exactDiv_zero] at e
    cases e
  · exact (Nat.div_le_self ..).trans (Nat.le_of_lt_succ (readReg rt s).isLt)

end Sys2Proof.Machine
end

section
/-! Settled obligations of the family 44_compare_load.md: `chk`, `cns` and `lpt`. -/

namespace Sys2Proof.Machine

/-! ### The comparison code (R180) -/

theorem compareCode_of_eq {a b : Byte} (h : a.toNat = b.toNat) : compareCode a b = Config.cmpCodes.eq :=
  if_pos (BitVec.eq_of_toNat_eq h)

theorem compareCode_of_lt {a b : Byte} (h : a.toNat < b.toNat) : compareCode a b = Config.cmpCodes.lt := by
  rw [compareCode, if_neg (BitVec.ne_of_lt h), if_pos h]

theorem compareCode_of_gt {a b : Byte} (h : b.toNat < a.toNat) : compareCode a b = Config.cmpCodes.gt := by
  rw [compareCode, if_neg (BitVec.ne_of_lt h).symm, if_neg h.not_gt]

/-! ### The meanings with both fields decoded (R180 to R182) -/

section
variable {t : Nibble} {v : Byte} {rt rv : Reg} (ht : t.toNat = rt.id) (hv : v.toNat = rv.id) {s : State}
include ht hv

theorem exec_chk_of_ids :
    exec (.chk t v) s = .next (writeReg .rf (compareCode (readReg rt s) (readReg rv s)) s) :=
  withOperands_ok ht hv s _

theorem exec_cns_of_condition (h : readReg .rf s = readReg .rc s) :
    exec (.cns t v) s = .next (writeReg rt (readReg rv s) s) :=
  (withOperands_ok ht hv s _).trans (if_pos (decide_eq_true h))

theorem exec_cns_of_not_condition (h : readReg .rf s ≠ readReg .rc s) : exec (.cns t v) s = .next s :=
  (withOperands_ok ht hv s _).trans (if_neg (mt of_decide_eq_true h))

/-- `lpt` ends as the read of the stack does: it loads the element, or raises the fault. -/
theorem exec_lpt_of_read_ok {b : Byte} (h : stackRead (readReg rv s) s = .ok b) :
    exec (.lpt t v) s = .next (writeReg rt b s) :=
  (withOperands_ok ht hv s _).trans (by simp only [h])

theorem exec_lpt_of_read_error {k : FaultKind} (h : stackRead (readReg rv s) s = .error k) :
    exec (.lpt t v) s = .next (raise k s) :=
  (withOperands_ok ht hv s _).trans (by simp only [h, takeFault])

end

/-! ### Reading the stack at an index (R60) -/

theorem stackRead_of_getElem? {i b : Byte} {s : State} (h : s.stack[i.toNat]? = some b) : stackRead i s = .ok b := by
  rw [stackRead, h]

theorem stackRead_of_length_le {i : Byte} {s : State} (h : s.stack.length ≤ i.toNat) :
    stackRead i s = .error .stackInvalidAccess := by
  rw [stackRead, List.getElem?_eq_none h]

/-! ### The three instructions (R180 to R182) -/

/-- Settles O42: the code is the comparison's, and the one write of `chk` is to RF. -/
theorem chkWritesComparison : Obligations.ChkWritesComparison := by
  refine ⟨encodedBy_ofBits 0x8, decodeFaults_ofFields (o := .chk) nofun nofun,
    ⟨Config.cmpCodes.eq_ne_lt, Config.cmpCodes.eq_ne_gt, Config.cmpCodes.lt_ne_gt⟩, fun t v rt rv s ht hv => ?_⟩
  rw [exec_chk_of_ids ht hv]
  have hwrite := fun code => registerWriteIsReadBack .rf code s
  exact ⟨fun h => compareCode_of_eq h ▸ hwrite _, fun h => compareCode_of_lt h ▸ hwrite _,
    fun h => compareCode_of_gt h ▸ hwrite _⟩

/-- Settles O43: where RF = RC the meaning is one register write, elsewhere the state itself. -/
theorem cnsMovesWhenEqual : Obligations.CnsMovesWhenEqual :=
  ⟨encodedBy_ofBits 0x9, decodeFaults_ofFields (o := .cns) nofun nofun, fun _ _ rt rv s ht hv =>
    ⟨fun h => exec_cns_of_condition ht hv h ▸ registerWriteIsReadBack rt (readReg rv s) s,
      exec_cns_of_not_condition ht hv⟩⟩

/-- Settles O44: the index has an element exactly when it is below Len, and loading it is one register write. -/
theorem lptLoadsStackElement : Obligations.LptLoadsStackElement :=
  ⟨encodedBy_ofBits 0xA, decodeFaults_ofFields (o := .lpt) nofun nofun, fun _ _ rt _ s ht hv =>
    ⟨fun h => exec_lpt_of_read_error ht hv (stackRead_of_length_le h),
      fun b h => exec_lpt_of_read_ok ht hv (stackRead_of_getElem? h) ▸ registerWriteIsReadBack rt b s⟩⟩

end Sys2Proof.Machine
end

section
/-! Settled obligations of the family 45_bitwise.md: `lsh`, `rsh`, `and`, `bor` and `xor`. -/

namespace Sys2Proof.Machine

/-! ### The shift amount under each reading of SHIFT_OVERSIZE (R200) -/

theorem shiftAmount_of_mask (h : Config.shiftOversize = .mask) (b : Byte) : shiftAmount b = some (b.toNat % 8) := by
  rw [shiftAmount, h, shiftAmountFor]

theorem shiftAmount_of_zero_of_le (h : Config.shiftOversize = .zero) {b : Byte} (hb : 8 ≤ b.toNat) :
    shiftAmount b = none := by
  rw [shiftAmount, h, shiftAmountFor, if_pos hb]

theorem shiftAmount_of_zero_of_lt (h : Config.shiftOversize = .zero) {b : Byte} (hb : b.toNat < 8) :
    shiftAmount b = some b.toNat := by
  rw [shiftAmount, h, shiftAmountFor, if_neg hb.not_ge]

/-! ### The shifted values (R201, R202) -/

theorem toNat_shiftLeftBy_some (a : Byte) (k : Nat) : (shiftLeftBy a (some k)).toNat = (a.toNat <<< k) % 256 :=
  BitVec.toNat_shiftLeft

theorem toNat_shiftRightBy_some (a : Byte) (k : Nat) : (shiftRightBy a (some k)).toNat = a.toNat >>> k :=
  BitVec.toNat_ushiftRight a k

/-! ### The combined write (R201 to R205) -/

section
variable {t : Nibble} {v : Byte} {rt rv : Reg} (ht : t.toNat = rt.id) (hv : v.toNat = rv.id) {s : State}
include ht hv

/-- No combination faults, and its value may be told by the number it stands for. -/
theorem combine_writesOnly {op : Byte → Byte → Byte} {n : Nat} (hop : (op (readReg rt s) (readReg rv s)).toNat = n) :
    writesOnly rt (BitVec.ofNat 8 n) s (combine op t v s) := by
  have hexec : combine op t v s = .next (writeReg rt (op (readReg rt s) (readReg rv s)) s) :=
    withOperands_ok ht hv s _
  rw [hexec, ← hop, BitVec.ofNat_toNat, BitVec.setWidth_eq]
  exact registerWriteIsReadBack rt _ s

/-- A shift of either direction under each reading of SHIFT_OVERSIZE, told by what it does to numbers. -/
theorem combine_shift_writesOnly {shift : Byte → Option Nat → Byte} {onNat : Nat → Nat → Nat}
    (hout : ∀ a, shift a none = 0#8) (hshift : ∀ a k, (shift a (some k)).toNat = onNat a.toNat k) :
    (Config.shiftOversize = .mask →
      writesOnly rt (BitVec.ofNat 8 (onNat (readReg rt s).toNat ((readReg rv s).toNat % 8))) s
        (combine (fun a b => shift a (shiftAmount b)) t v s)) ∧
    (Config.shiftOversize = .zero →
      (8 ≤ (readReg rv s).toNat → writesOnly rt 0 s (combine (fun a b => shift a (shiftAmount b)) t v s)) ∧
      ((readReg rv s).toNat < 8 →
        writesOnly rt (BitVec.ofNat 8 (onNat (readReg rt s).toNat (readReg rv s).toNat)) s
          (combine (fun a b => shift a (shiftAmount b)) t v s))) := by
  refine ⟨fun h => combine_writesOnly ht hv ?_, fun h =>
    ⟨fun hle => combine_writesOnly (n := 0) ht hv ?_, fun hlt => combine_writesOnly ht hv ?_⟩⟩
  · rw [shiftAmount_of_mask h, hshift]
  · rw [shiftAmount_of_zero_of_le h hle, hout, BitVec.toNat_zero]
  · rw [shiftAmount_of_zero_of_lt h hlt, hshift]

end

/-! ### The five instructions (R201 to R205) -/

/-- Settles O45: a left shift of a byte is a shift of its number modulo 256, and SHIFT_OVERSIZE gives the amount. -/
theorem lshShiftsLeft : Obligations.LshShiftsLeft := by
  refine ⟨encodedBy_ofBits 0xB, decodeFaults_ofFields (o := .lsh) nofun nofun, fun t v rt rv s ht hv => ?_⟩
  obtain ⟨hmask, hzero⟩ :=
    combine_shift_writesOnly (onNat := fun a k => a <<< k % 256) ht hv (fun _ => rfl) toNat_shiftLeftBy_some
  cases h : Config.shiftOversize with
  | mask => exact hmask h
  | zero => exact hzero h

/-- Settles O46: a right shift of a byte is a shift of its number, and SHIFT_OVERSIZE gives the amount. -/
theorem rshShiftsRight : Obligations.RshShiftsRight := by
  refine ⟨encodedBy_ofBits 0xC, decodeFaults_ofFields (o := .rsh) nofun nofun, fun t v rt rv s ht hv => ?_⟩
  obtain ⟨hmask, hzero⟩ :=
    combine_shift_writesOnly (onNat := fun a k => a >>> k) ht hv (fun _ => rfl) toNat_shiftRightBy_some
  cases h : Config.shiftOversize with
  | mask => exact hmask h
  | zero => exact hzero h

/-- Settles O47: the AND of two bytes is the AND of their numbers. -/
theorem andIsBitwise : Obligations.AndIsBitwise :=
  ⟨encodedBy_ofBits 0xD, decodeFaults_ofFields (o := .and) nofun nofun, fun _ _ _ _ _ ht hv =>
    combine_writesOnly (op := (· &&& ·)) ht hv (BitVec.toNat_and ..)⟩

/-- Settles O48: the OR of two bytes is the OR of their numbers. -/
theorem borIsBitwise : Obligations.BorIsBitwise :=
  ⟨encodedBy_ofBits 0xE, decodeFaults_ofFields (o := .bor) nofun nofun, fun _ _ _ _ _ ht hv =>
    combine_writesOnly (op := (· ||| ·)) ht hv (BitVec.toNat_or ..)⟩

/-- Settles O49: the exclusive OR of two bytes is the exclusive OR of their numbers. -/
theorem xorIsBitwise : Obligations.XorIsBitwise :=
  ⟨encodedBy_ofBits 0xF, decodeFaults_ofFields (o := .xor) nofun nofun, fun _ _ _ _ _ ht hv =>
    combine_writesOnly (op := (· ^^^ ·)) ht hv (BitVec.toNat_xor ..)⟩

end Sys2Proof.Machine
end

section
/-! Settled obligations of the family 60_exceptions.md: fault entry, the kinds of an opcode, Halted and `fault_ip`. -/

namespace Sys2Proof.Machine

/-! ### Fault entry (R223, R224) -/

/-- Settles O18: a step ends the run by a fetch fault on the state as it was, or by the fault its instruction ends with,
which `raisePartial_cases` takes apart into one fault entry and what may be drawn after it. -/
theorem faultEntryRecords : Obligations.FaultEntryRecords := by
  refine ⟨fun _ _ => ⟨rfl, rfl, rfl⟩, fun s t hrun h hend => ?_⟩
  rcases step_cases hrun h with ⟨k, _, _, rfl⟩ | ⟨w, x, u, _, _, hu, ⟨hur, rfl⟩ | ⟨_, rfl⟩⟩
  · exact ⟨k, s, hrun, rfl, rfl, .inl rfl⟩
  · exact absurd hur hend
  · rcases exec_next_cases hu with ⟨_, hstatus, _⟩ | ⟨k, range, n, v, _, _, rfl, _, hstatus, hfault, htrace⟩
    · exact absurd (hstatus.trans hrun) hend
    · refine ⟨k, v, hstatus.trans hrun, hfault, htrace, ?_⟩
      rcases raisePartial_cases k range n v with e | ⟨hfree, e⟩
      · exact .inl e
      · exact .inr ⟨hfree, range, e⟩

/-! ### The kinds of an opcode (R220) -/

/-- Settles O20: the kind a fault records is one that `exec_next_cases` finds in the opcode's list. -/
theorem opcodeRaisesItsOwnKinds : Obligations.OpcodeRaisesItsOwnKinds :=
  fun _ _ _ _ hs h hf => exec_fault_kind hs h hf

/-! ### What a sequence of pushes or pops keeps, at its end -/

theorem resultHolds.of_done {P : State → Prop} {res : ElementsResult} {u : State} (h : resultHolds P res)
    (e : res = .done u) : P u := by
  subst e; exact h

theorem resultHolds.of_raised {P : State → Prop} {res : ElementsResult} {k : FaultKind} {n : Nat} {u : State}
    (h : resultHolds P res) (e : res = .raised k n u) : P u := by
  subst e; exact h

/-! ### Halted (R225) -/

theorem halt_mem_executeKinds_iff (o : Opcode) : .halt ∈ executeKinds o ↔ o = .int := by
  have hvalue : .halt ≠ valueRegKind := by rcases valueRegKind_cases with h | h <;> rw [h] <;> decide
  cases o <;> simp [executeKinds, hvalue, popUnderflowKind_ne_halt.symm]

theorem raise_halted_iff (k : FaultKind) (s : State) : (raise k s).status = .halted ↔ k = .halt := by
  rw [raise_status]; split <;> simp [*]

theorem raisePartial_halted_iff (k : FaultKind) (range : List Reg) (n : Nat) (s : State) :
    (raisePartial k range n s).status = .halted ↔ k = .halt := by
  rw [raisePartial_status]; exact raise_halted_iff k s

/-- Of the answers of `int`, only the one to RS = 0 ends the run Halted. -/
theorem int_halted_selector {t : Nibble} {v : Byte} {s u : State} (hrun : s.status = .running)
    (h : exec (.int t v) s = .next u) (hu : u.status = .halted) : readReg .rs s = 0 := by
  cases int_cases t v s with
  | halt hrs _ => exact hrs
  | printError _ _ e | readError _ _ e | unimplemented _ _ _ e =>
    cases e.symm.trans h; cases (raise_halted_iff _ _).mp hu
  | readFull _ _ _ n w _ e => cases e.symm.trans h; cases (raisePartial_halted_iff _ _ n w).mp hu
  | silent _ _ e => cases e.symm.trans h
  | printed _ _ e => cases e.symm.trans h; cases hrun.symm.trans hu
  | read _ bytes _ w hw e =>
    cases e.symm.trans h
    obtain ⟨_, hstatus, _⟩ := (pushEach_runKept _ _ 0 (takeLine s)).of_done hw
    cases (hstatus.trans hrun).symm.trans hu

/-- An instruction ends a run Halted only if it is an `int` that finds RS = 0. -/
theorem exec_halted {i : Instr} {s u : State} (hrun : s.status = .running) (h : exec i s = .next u)
    (hu : u.status = .halted) : i.opcode = .int ∧ readReg .rs s = 0 := by
  have hint : i.opcode = .int := by
    rcases exec_next_cases h with ⟨_, hstatus, _⟩ | ⟨k, range, n, v, hk, _, rfl, _⟩
    · cases (hstatus.trans hrun).symm.trans hu
    · rw [(raisePartial_halted_iff k range n v).mp hu] at hk
      exact (halt_mem_executeKinds_iff _).mp hk
  refine ⟨hint, ?_⟩
  cases i <;> cases hint
  exact int_halted_selector hrun h hu

/-- Settles O23: fetch raises no Halt and leaves RS, so the end is the instruction's; an `int` at RS = 0 raises Halt. -/
theorem haltedOnlyByIntAtZero : Obligations.HaltedOnlyByIntAtZero := by
  intro s t hrun h
  constructor
  · intro hhalted
    rcases step_cases hrun h with ⟨k, hk, _, rfl⟩ | ⟨w, x, u, _, hfetch, hu, ⟨hur, rfl⟩ | ⟨_, rfl⟩⟩
    · cases (raise_halted_iff k s).mp hhalted
      rcases hk with hk | hk <;> cases hk
    · cases hur.symm.trans hhalted
    · obtain ⟨hint, hrs⟩ := exec_halted (s := writeReg .rn x s) hrun hu hhalted
      rw [readReg_writeReg_ne (by decide)] at hrs
      exact ⟨w, _, hfetch, hint, hrs⟩
  · rintro ⟨w, u, hfetch, hint, hrs⟩
    rcases fetch_error_or_ok s with ⟨k, e⟩ | ⟨w', x, e⟩ <;> cases e.symm.trans hfetch
    rw [step_of_fetch_ok hrun hfetch] at h
    cases hw : decodeWord w <;> rw [hw] at h hint <;> cases hint
    rw [exec_int_of_zero _ _ ((readReg_writeReg_ne (by decide) x s).trans hrs)] at h
    cases h
    rfl

/-! ### The instruction pointer a fault records (R221) -/

/-- The record an instruction fills holds RN as the instruction found it: only a `pop` into RN can change RN before the
fault, and free values come after the record (R223, R224). -/
theorem exec_fault_ip {i : Instr} {s u : State} {f : FaultRecord} (hs : s.fault = none)
    (hpop : i.opcode = .pop → ¬ namesDestination i .rn) (h : exec i s = .next u) (hf : u.fault = some f) :
    f.ip = readReg .rn s := by
  have hnotKept : ¬ runKept s u := fun ⟨_, _, hfault, _⟩ => by
    rw [hfault, hs] at hf; cases hf
  have hraised : ∀ k range n v, readReg .rn v = readReg .rn s → (raisePartial k range n v).fault = some f →
      f.ip = readReg .rn s := fun k range n v hrn e => by
    rw [raisePartial_fault] at e; cases e; exact hrn
  by_cases hi : singleElement i
  · rcases exec_single i s hi with ⟨k, _, e⟩ | ⟨r, x, _, e⟩ | e <;> cases e.symm.trans h
    · exact hraised k [] 0 s rfl hf
    · exact absurd (runKept_refl s) hnotKept
    · exact absurd (runKept_refl s) hnotKept
  · cases i <;> simp [singleElement, Instr.opcode] at hi
    case int t v =>
      cases int_cases t v s with
      | halt _ e | printError _ _ e | readError _ _ e | unimplemented _ _ _ e =>
        cases e.symm.trans h; exact hraised _ [] 0 _ rfl hf
      | silent _ _ e => cases e.symm.trans h
      | printed _ _ e => cases e.symm.trans h; exact absurd (runKept_refl s) hnotKept
      | read _ bytes _ w hw e =>
        cases e.symm.trans h
        exact absurd ((pushEach_runKept _ _ 0 (takeLine s)).of_done hw) hnotKept
      | readFull _ bytes _ n w hw e =>
        cases e.symm.trans h
        exact hraised _ _ n w ((pushEach_keeps_reg (by decide) _ _ 0 (takeLine s)).of_raised hw) hf
    case psh t v =>
      rcases psh_cases t v s with ⟨k, _, e⟩ | ⟨rt, rv, _, _, ⟨w, hw, e⟩ | ⟨n, w, hw, e⟩⟩ <;>
        cases e.symm.trans h
      · exact hraised k [] 0 s rfl hf
      · exact absurd ((pushEach_runKept ..).of_done hw) hnotKept
      · exact hraised _ _ n w ((pushEach_keeps_reg (by decide) ..).of_raised hw) hf
    case pop t v =>
      rcases pop_cases t v s with ⟨k, _, e⟩ | ⟨rt, rv, ht, hv, ⟨w, hw, e⟩ | ⟨n, w, hw, e⟩⟩ <;>
        cases e.symm.trans h
      · exact hraised k [] 0 s rfl hf
      · exact absurd ((popEach_runKept ..).of_done hw) hnotKept
      · have hnot : .rn ∉ regRange rt rv := by
          have hname := hpop rfl
          rw [namesDestination, ht, hv] at hname
          rwa [mem_regRange]
        exact hraised _ _ n w ((popEach_keeps_reg (by decide) (mt List.mem_reverse.mp hnot) ..).of_raised hw) hf

/-- Settles O59: a fetch fault is raised on the state as it was, and every other fault records RN as fetch advanced it.
-/
theorem faultIpIsRnAtFault : Obligations.FaultIpIsRnAtFault := by
  intro s t f hrun hs h hf
  refine ⟨fun hnone => ?_, fun w hw => ⟨fun hlast htarget => ?_, fun hlast hpop => ?_⟩⟩
  · rw [step_of_fetch_error hrun (fetch_of_length_le (List.getElem?_eq_none_iff.mp hnone))] at h
    cases h
    cases hf
    rfl
  · rw [step_of_fetch_error hrun (fetch_last_of_target_ne hw hlast htarget)] at h
    cases h
    cases hf
    rw [hlast]
  · rw [step_of_fetch_ok hrun (fetch_of_ne_last hw hlast)] at h
    obtain ⟨u, hu, ht⟩ := retire_next h
    have huf : u.fault = some f := by rcases ht with ⟨_, rfl⟩ | ⟨_, rfl⟩ <;> exact hf
    rw [exec_fault_ip (s := writeReg .rn (readReg .rn s + 1) s) hs hpop hu huf, readReg_writeReg_same,
      toNat_advance hlast]

end Sys2Proof.Machine
end

section
/-! Settled obligations of the family 70_reset_and_hazards.md. -/

namespace Sys2Proof.Machine

/-! ### A fresh context, piece by piece (R250) -/

@[simp] theorem create_regs_getElem (code : List Word) (i : Nat) (hi : i < 14) : (State.create code).regs[i] = 0 :=
  Vector.getElem_replicate hi

@[simp] theorem readReg_create (r : Reg) (code : List Word) : readReg r (State.create code) = 0 :=
  create_regs_getElem code (regIndex r) (regIndex r).isLt

@[simp] theorem create_stack (code : List Word) : (State.create code).stack = [] := rfl

@[simp] theorem create_code (code : List Word) : (State.create code).code = code := rfl

@[simp] theorem create_status (code : List Word) : (State.create code).status = .running := rfl

@[simp] theorem create_fault (code : List Word) : (State.create code).fault = none := rfl

@[simp] theorem create_trace (code : List Word) : (State.create code).trace = none := rfl

/-- Settles O6: each piece of state has the reset value its rule gives, entry 13 like the thirteen registers. -/
theorem creationResetsEverything : Obligations.CreationResetsEverything := fun code =>
  ⟨fun r => readReg_create r code, create_regs_getElem code 13 (by decide), create_stack code, create_code code,
    create_status code, create_fault code, create_trace code⟩

/-! ### A fresh context meets the invariants -/

/-- A fresh context is Running, and it has no record. -/
theorem recordAgrees_create (code : List Word) : recordAgrees (State.create code) :=
  create_fault code

/-- The empty stack is within any capacity. -/
theorem withinCapacity_create (code : List Word) : withinCapacity (State.create code) := fun _ c _ => by
  rw [create_stack]
  exact Nat.zero_le c.size

/-- RD is 0, the length of the empty stack. -/
theorem depthMirrors_create (code : List Word) : depthMirrors (State.create code) := by
  rw [depthMirrors, readReg_create, create_stack]
  rfl

/-- Settles O54: reset is the creation from the empty bytecode (log entry 2), so what holds of every fresh context holds
of it. -/
theorem freshContextMeetsInvariants : Obligations.FreshContextMeetsInvariants := by
  have hcreate (code : List Word) :
      recordAgrees (State.create code) ∧ withinCapacity (State.create code) ∧ depthMirrors (State.create code) :=
    ⟨recordAgrees_create code, withinCapacity_create code, depthMirrors_create code⟩
  exact ⟨rfl, hcreate [], hcreate⟩

end Sys2Proof.Machine
end
